-- ==== Sys2Proof/Word.lean ====
section
/-! DEFINITION. The one word of the core: a 32-bit raw pattern (00_scope.md R1, 10_state.md R11). -/

namespace Sys2Proof

/-- A raw pattern: the 32 bits of a register, of a command word, of the data on the host port
(R1, R11, R60). -/
abbrev Word := BitVec 32

end Sys2Proof
end

