-- ==== Sys2Proof/Syntax.lean ====
section
/-! DEFINITION. The names of the data registers (10_state.md R10 to R16) and the twelve commands
(30_encoding.md R63), one constructor per row of spec/opcode_table.json. -/

namespace Sys2Proof

/-- The 38 data registers (R10). `NCNT`, `CMD` and `STATUS` are no data registers (R17, R19, R20). -/
inductive Reg where
  /-- `X[i]`, sample x value (R12). -/
  | x (i : Fin 8)
  /-- `Y[i]`, sample y value (R12). -/
  | y (i : Fin 8)
  /-- `P[i]`, prediction (R13). -/
  | p (i : Fin 8)
  /-- First operand of the primitive commands (R14). -/
  | opa
  /-- Second operand of the primitive commands (R14). -/
  | opb
  /-- Result of the primitive commands (R14). -/
  | res
  /-- The determinant, input of the approximator (R15). -/
  | det
  /-- The shift count `k` of the exponent scan (R15). -/
  | ksh
  /-- The seed (R15). -/
  | seed
  /-- The reciprocal estimate (R15). -/
  | rcp
  /-- Σx (R16). -/
  | sumx
  /-- Σx² (R16). -/
  | sumxx
  /-- The scaled coefficient `c` (R16). -/
  | cc
  /-- The scaled coefficient `d` (R16). -/
  | cd
  /-- The scaled coefficient `e` (R16). -/
  | ce
  /-- θ0, the intercept (R16). -/
  | th0
  /-- θ1, the slope (R16). -/
  | th1
deriving DecidableEq, Repr

/-- The commands of the LRQ16 command set, version 1.0 (R63). Commands name no registers (R64);
the immediate of SHL and ONEHOT is the only operand inside a word (R62). -/
inductive Instr where
  | nop
  | add
  | sub
  | mul
  /-- `SHL #n` (R93). -/
  | shl (n : Nat)
  | cmp
  /-- `ONEHOT #n` (R95). -/
  | onehot (n : Nat)
  | recip
  | acc
  | coef
  | predict
  | fit
deriving DecidableEq, Repr

end Sys2Proof
end

