-- ==== Sys2Proof/WellFormed.lean ====
section
/-! DEFINITION. Which commands a word can express: the immediate of SHL and of ONEHOT lies in
0..31 (30_encoding.md R62, 40_fixedpoint.md R87). -/

namespace Sys2Proof

/-- A 5-bit immediate, an unsigned integer 0..31 (R62). -/
def immediateFits (n : Nat) : Bool := decide (n < 32)

/-- The command can be written as a command word: "Every value 0..31 is legal for both" SHL and
ONEHOT, and no other value can be expressed (R62, R87). -/
def Instr.wellFormed : Instr → Bool
  | .shl n => immediateFits n
  | .onehot n => immediateFits n
  | .nop => true
  | .add => true
  | .sub => true
  | .mul => true
  | .cmp => true
  | .recip => true
  | .acc => true
  | .coef => true
  | .predict => true
  | .fit => true

end Sys2Proof
end

