-- ==== Sys2Proof/Decode.lean ====
section
/-! DEFINITION. Decoding and encoding of command words (30_encoding.md R60 to R66). Decoding is
total; a word that is not legal is refused by name, and the machine completes it as the illegal
command (R66). -/

namespace Sys2Proof

/-- Why a word is illegal (R66). All three have the same effect. -/
inductive DecodeError where
  /-- A non-zero bit in 31:13. -/
  | reservedBits
  /-- `imm5` is not 0 and the opcode is not one of format I. -/
  | immediateNotZero
  /-- An opcode that the map of R63 does not assign. -/
  | unassignedOpcode
deriving DecidableEq, Repr

/-- `opcode`, bits 7:0 (R61). -/
def opcodeField (w : Word) : BitVec 8 := w.extractLsb' 0 8

/-- `imm5`, bits 12:8 (R61, R62). -/
def imm5Field (w : Word) : BitVec 5 := w.extractLsb' 8 5

/-- `zero`, bits 31:13 (R61). -/
def zeroField (w : Word) : BitVec 19 := w.extractLsb' 13 19

/-- The format N rows of the opcode map (R63). -/
def decodeFormatN (op : Nat) : Option Instr :=
  match op with
  | 0x00 => some .nop
  | 0x01 => some .add
  | 0x02 => some .sub
  | 0x03 => some .mul
  | 0x05 => some .cmp
  | 0x10 => some .recip
  | 0x11 => some .acc
  | 0x12 => some .coef
  | 0x13 => some .predict
  | 0x14 => some .fit
  | _ => none

/-- Decoding, a total function of the one word (R65). -/
def decode (w : Word) : Except DecodeError Instr :=
  let op := (opcodeField w).toNat
  let n := (imm5Field w).toNat
  if zeroField w ≠ 0 then .error .reservedBits
  else if op = 0x04 then .ok (.shl n)
  else if op = 0x06 then .ok (.onehot n)
  else if n ≠ 0 then .error .immediateNotZero
  else
    match decodeFormatN op with
    | some i => .ok i
    | none => .error .unassignedOpcode

/-- The opcode column of the map (R63). -/
def Instr.opcode : Instr → BitVec 8
  | .nop => 0x00#8
  | .add => 0x01#8
  | .sub => 0x02#8
  | .mul => 0x03#8
  | .shl _ => 0x04#8
  | .cmp => 0x05#8
  | .onehot _ => 0x06#8
  | .recip => 0x10#8
  | .acc => 0x11#8
  | .coef => 0x12#8
  | .predict => 0x13#8
  | .fit => 0x14#8

/-- The value of `imm5`: the immediate in format I, 0 in format N (R61, R62). -/
def Instr.immediate : Instr → Nat
  | .shl n => n
  | .onehot n => n
  | .nop => 0
  | .add => 0
  | .sub => 0
  | .mul => 0
  | .cmp => 0
  | .recip => 0
  | .acc => 0
  | .coef => 0
  | .predict => 0
  | .fit => 0

/-- The command word: 19 zeros, `imm5`, `opcode` (R61). It stands for the instruction when
`wellFormed` holds. -/
def encode (i : Instr) : Word :=
  (0#19 ++ BitVec.ofNat 5 i.immediate) ++ i.opcode

/-- The command word whose low `nbits` bits are those of `w`, every higher bit 0. The port moves
whole words, so there is no byte order to apply (R49). -/
def tableWord (nbits w : Nat) : Word := BitVec.ofNat 32 (w % 2 ^ nbits)

/-- What the decoder reads from a row of the opcode table. -/
def decodeTableWord (nbits w : Nat) : Option Instr :=
  match decode (tableWord nbits w) with
  | .ok i => some i
  | .error _ => none

end Sys2Proof
end

