-- ==== Sys2Proof/Machine/Numeric.lean ====
section
/-! DEFINITION. The fixed-point numeric unit: the readings of a pattern (00_scope.md section 5) and
the primitive functions of 40_fixedpoint.md R80 to R96. Each arithmetic primitive answers the
result pattern and its overflow bit `o` (R88). -/

namespace Sys2Proof.Machine

/-- `sint(r)`: the pattern read as a two's-complement integer (00_scope.md section 5, R80). -/
def sint (r : Word) : Int := r.toInt

/-- `wrap32(z)`: the pattern congruent to `z` modulo 2^32 (00_scope.md section 5, R81). -/
def wrap32 (z : Int) : Word := BitVec.ofInt 32 z

/-- `fits32(z)`: -2^31 <= z <= 2^31 - 1 (00_scope.md section 5). -/
def fits32 (z : Int) : Bool := decide (-2147483648 ≤ z ∧ z ≤ 2147483647)

/-- `val(r) = sint(r) / 2^16` (R80). -/
def val (r : Word) : Rat := (sint r : Rat) / 65536

/-- `q(t)` for the rational `t = num / den` with `den > 0`: the pattern a host tool writes for a
literal (00_scope.md section 5). -/
def quantise (num : Int) (den : Nat) : Word := wrap32 ((num * 65536) / (den : Int))

/-- ONE, 1.0. -/
def one : Word := 0x00010000#32

/-- TWO, 2.0. -/
def two : Word := 0x00020000#32

/-- N8, the count `n` = 8.0 that `NCNT` reads as (R17, R138). -/
def n8 : Word := 0x00080000#32

/-- The overflow policy: the exact scaled integer wraps, and `o` says that it did not fit
(R81, R88). -/
def wrapped (z : Int) : Word × Bool := (wrap32 z, !fits32 z)

/-- `add(a, b)` (R83). -/
def fxAdd (a b : Word) : Word × Bool := wrapped (sint a + sint b)

/-- `sub(a, b)` (R84). -/
def fxSub (a b : Word) : Word × Bool := wrapped (sint a - sint b)

/-- `neg(a) = sub(ZERO, a)` (R85). -/
def fxNeg (a : Word) : Word × Bool := fxSub 0 a

/-- `mul(a, b)`: the exact product, its 16 low bits dropped, which is the floor (R82, R86). -/
def fxMul (a b : Word) : Word × Bool := wrapped ((sint a * sint b) / 65536)

/-- `shl(a, n)` (R87). -/
def fxShl (a : Word) (n : Nat) : Word × Bool := wrapped (sint a * (2 ^ n : Nat))

/-- `gt(a, b)`: signed comparison (R89). -/
def fxGt (a b : Word) : Bool := decide (sint a > sint b)

/-- `cmp3(a, b)`: LT, EQ, GT (R89). -/
def fxCmp3 (a b : Word) : Bool × Bool × Bool :=
  (decide (sint a < sint b), decide (a = b), decide (sint a > sint b))

/-- `onehot(n)`: only bit `n` set (R96). -/
def fxOnehot (n : Nat) : Word := BitVec.ofNat 32 (2 ^ n)

end Sys2Proof.Machine
end

