-- ==== Sys2Proof/Config.lean ====
section
/-! DEFINITION. What the spec leaves open (92_eei_decisions.md "Open parameters",
93_implementation_defined.md U4 to U8): free values without a body, so that nothing can be proved
of any one of them. -/

namespace Sys2Proof.Config

/-- What a free word stands for. Two uses in one clock cycle are unrelated values. -/
inductive FreeUse where
  /-- The read data of the host port where R41, R43 or R27 leave it unspecified (U4, U5, U6). -/
  | rdata
  /-- The new content of a data register where R26 or R220 leave it unspecified (U5, U8). -/
  | reg (r : Reg)
  /-- The flags a command computes from an unwritten register (R26, U5); bit `i` stands for
  `STATUS[i]`. -/
  | flags
deriving DecidableEq, Repr

/-- A word the spec leaves unspecified, fresh for every `draw`; two states at the same `draw` get
the same word (DESIGN CHOICE, log entries 4 and 5). -/
opaque freeWord (draw : Nat) (use : FreeUse) : Word

/-- `LAT(w, state) - 1` for the command word `w` accepted at `draw` while the data registers hold
`data`: any natural number, so that LAT is finite and at least 1 and may depend on the command, the
data and the implementation (R230, D18, U7). That the implementation's own share is a function of
`draw` alone is the model's choice (DESIGN CHOICE, log entry 6). -/
opaque freeLatency (draw : Nat) (w : Word) (data : Reg → Word) : Nat

end Sys2Proof.Config
end

