-- ==== Sys2Proof/Machine/State.lean ====
section
/-! DEFINITION. The state of the core as plain data (10_state.md R10), what the host drives on the
port (20_memory.md R43), the reasons a step could stop, and the state right after reset (R27). -/

namespace Sys2Proof.Machine

/-- One value for each of the 38 data registers (R10). -/
structure RegFile (α : Type) where
  x : Vector α 8
  y : Vector α 8
  p : Vector α 8
  opa : α
  opb : α
  res : α
  det : α
  ksh : α
  seed : α
  rcp : α
  sumx : α
  sumxx : α
  cc : α
  cd : α
  ce : α
  th0 : α
  th1 : α
deriving DecidableEq, Repr

/-- The same value in every data register. -/
def RegFile.const {α : Type} (a : α) : RegFile α where
  x := #v[a, a, a, a, a, a, a, a]
  y := #v[a, a, a, a, a, a, a, a]
  p := #v[a, a, a, a, a, a, a, a]
  opa := a
  opb := a
  res := a
  det := a
  ksh := a
  seed := a
  rcp := a
  sumx := a
  sumxx := a
  cc := a
  cd := a
  ce := a
  th0 := a
  th1 := a

/-- The seven flags (R20, R21). -/
inductive Flag where
  | ill
  | ood
  | ovf
  | degen
  | lt
  | eq
  | gt
deriving DecidableEq, Repr

/-- What the host drives on the port in one clock cycle (R43). -/
structure PortIn where
  rst : Bool
  we : Bool
  re : Bool
  addr : BitVec 6
  wdata : Word
deriving DecidableEq, Repr

/-- A cycle in which the host does nothing. -/
def PortIn.idle : PortIn where
  rst := false
  we := false
  re := false
  addr := 0
  wdata := 0

/-- The state. The first three fields are the spec's: the data registers (R11 to R16), `STATUS`
(R20), `PEND` (R23). `NCNT` is hardwired and `CMD` stores nothing (R17, R19), so neither has a
field. The others are the model's own (INVENTORY.md, State). -/
structure State where
  /-- What the data registers hold. -/
  regs : RegFile Word
  /-- `STATUS`, the whole word (R20). -/
  status : Word
  /-- `PEND`: empty, or the accepted command word (R23). -/
  pend : Option Word
  /-- Which data registers have been written since reset, by the host or by a command (R26, R223);
  one that has not holds no specified value (R27). -/
  written : RegFile Bool
  /-- Clock edges still to pass before the edge at which the pending command completes (R230). -/
  wait : Nat
  /-- What the host will drive in the coming cycles, the next one first; after the last, it is idle. -/
  pins : List PortIn
  /-- The read data output in the cycle that the last step ended (R43). -/
  rdata : Word
  /-- How many free values have been drawn. -/
  draws : Nat
  /-- The OR of `STATUS[5:2]` at every completion (R21, R199): ILL in bit 0, OOD in bit 1, OVF in
  bit 2, DEGEN in bit 3. The hardware keeps no such record. -/
  errors : BitVec 4
deriving DecidableEq, Repr

/-- Why the machine would stop with a fault. There is no constructor: "The core raises no
synchronous exception and takes no trap" (60_exceptions.md R190), every accepted command completes
(R45), so nothing raises a fault (safe). -/
inductive Fault where
deriving DecidableEq, Repr

/-- Why the model gives an instruction no meaning. -/
inductive Refusal where
  /-- The instruction has no meaning yet. Raised by no arm of exec: all twelve commands are
  modelled (safe). -/
  | notModelled (mnemonic : String)
deriving DecidableEq, Repr

/-- Right after reset (R27, R220, R221): `STATUS` 0, `PEND` empty, every data register unwritten.
The pattern an unwritten register holds here is 0 (DESIGN CHOICE, unsafe, log entry 1); no command
and no port read sees it (R26, log entry 2). -/
def State.reset : State where
  regs := RegFile.const 0
  status := 0
  pend := none
  written := RegFile.const false
  wait := 0
  pins := []
  rdata := 0
  draws := 0
  errors := 0

end Sys2Proof.Machine
end

