-- ==== Sys2Proof/Machine/Flags.lean ====
section
/-! DEFINITION. `STATUS` and its fields (10_state.md R20, R21; 60_exceptions.md R191). -/

namespace Sys2Proof.Machine

/-- The bit of `STATUS` a flag is (R20, R191). -/
def Flag.bit : Flag → Nat
  | .ill => 2
  | .ood => 3
  | .ovf => 4
  | .degen => 5
  | .lt => 8
  | .eq => 9
  | .gt => 10

/-- The mask of a flag (R191). -/
def Flag.mask (f : Flag) : Word := 1#32 <<< f.bit

/-- `STATUS.F` (R20). -/
def State.flag (s : State) (f : Flag) : Bool := s.status.getLsbD f.bit

/-- `STATUS.BUSY`, bit 0 (R20). -/
def State.busy (s : State) : Bool := s.status.getLsbD 0

/-- `STATUS.DONE`, bit 1 (R20). -/
def State.doneFlag (s : State) : Bool := s.status.getLsbD 1

/-- The output pin `done` equals `STATUS.DONE` at all times (R24). -/
def State.donePin (s : State) : Bool := s.doneFlag

/-- `STATUS[10:2]` with each listed flag at its value and every other flag 0 (R21). -/
def flagsWord : List (Flag × Bool) → Word
  | [] => 0
  | (f, b) :: rest => (if b then f.mask else 0) ||| flagsWord rest

/-- `STATUS` from the accept to the completion: BUSY alone (R20, R44). -/
def statusAccepted : Word := 0x00000001#32

/-- `STATUS` after a completion: DONE and the flags (R20, R45). -/
def statusCompleted (fs : List (Flag × Bool)) : Word := 0x00000002#32 ||| flagsWord fs

/-- `STATUS[5:2]`, the error flags of the last completed command (R191). -/
def errorBits (status : Word) : BitVec 4 := status.extractLsb' 2 4

end Sys2Proof.Machine
end

