-- ==== Sys2Proof/Machine/Operands.lean ====
section
/-! DEFINITION. How an operand is named: the data registers in the register file, the word index on
the host port (10_state.md R10), and the table of what each command reads, writes and computes
(R18). -/

namespace Sys2Proof.Machine

/-- What register `r` holds. -/
def RegFile.get {α : Type} (f : RegFile α) : Reg → α
  | .x i => f.x[i]
  | .y i => f.y[i]
  | .p i => f.p[i]
  | .opa => f.opa
  | .opb => f.opb
  | .res => f.res
  | .det => f.det
  | .ksh => f.ksh
  | .seed => f.seed
  | .rcp => f.rcp
  | .sumx => f.sumx
  | .sumxx => f.sumxx
  | .cc => f.cc
  | .cd => f.cd
  | .ce => f.ce
  | .th0 => f.th0
  | .th1 => f.th1

/-- The file with `v` in register `r`; each register is storage of its own (R11). -/
def RegFile.set {α : Type} (f : RegFile α) (r : Reg) (v : α) : RegFile α :=
  match r with
  | .x i => { f with x := f.x.set i v }
  | .y i => { f with y := f.y.set i v }
  | .p i => { f with p := f.p.set i v }
  | .opa => { f with opa := v }
  | .opb => { f with opb := v }
  | .res => { f with res := v }
  | .det => { f with det := v }
  | .ksh => { f with ksh := v }
  | .seed => { f with seed := v }
  | .rcp => { f with rcp := v }
  | .sumx => { f with sumx := v }
  | .sumxx => { f with sumxx := v }
  | .cc => { f with cc := v }
  | .cd => { f with cd := v }
  | .ce => { f with ce := v }
  | .th0 => { f with th0 := v }
  | .th1 => { f with th1 := v }

/-- The eight lanes, in order (R133). -/
def lanes : List (Fin 8) := [0, 1, 2, 3, 4, 5, 6, 7]

/-- The array whose element `i` is `g i` (R133). -/
def perLane {α : Type} (g : Fin 8 → α) : Vector α 8 :=
  #v[g 0, g 1, g 2, g 3, g 4, g 5, g 6, g 7]

/-- Some lane's bit is set (R88, R133). -/
def anyLane (g : Fin 8 → Bool) : Bool := lanes.any g

/-- `X[0..7]`. -/
def xRegs : List Reg := lanes.map Reg.x

/-- `Y[0..7]`. -/
def yRegs : List Reg := lanes.map Reg.y

/-- `P[0..7]`. -/
def pRegs : List Reg := lanes.map Reg.p

/-- What a word index of the host port names (R10). -/
inductive PortTarget where
  | data (r : Reg)
  | ncnt
  | cmd
  | status
  | reserved
deriving DecidableEq, Repr

/-- The register map (R10): every one of the 64 indices is a valid access (R50). -/
def portTarget (idx : BitVec 6) : PortTarget :=
  let n := idx.toNat
  if n < 0x08 then .data (.x (Fin.ofNat 8 n))
  else if n < 0x10 then .data (.y (Fin.ofNat 8 (n - 0x08)))
  else if n < 0x20 then
    match n with
    | 0x10 => .data .opa
    | 0x11 => .data .opb
    | 0x12 => .data .res
    | 0x13 => .data .det
    | 0x14 => .data .ksh
    | 0x15 => .data .seed
    | 0x16 => .data .rcp
    | 0x17 => .data .sumx
    | 0x18 => .data .sumxx
    | 0x19 => .ncnt
    | 0x1A => .data .cc
    | 0x1B => .data .cd
    | 0x1C => .data .ce
    | 0x1D => .data .th0
    | 0x1E => .data .th1
    | _ => .reserved
  else if n < 0x28 then .data (.p (Fin.ofNat 8 (n - 0x20)))
  else if n = 0x28 then .cmd
  else if n = 0x29 then .status
  else .reserved

/-- The word index of a data register (R10). -/
def regIndex : Reg → BitVec 6
  | .x i => BitVec.ofNat 6 i
  | .y i => BitVec.ofNat 6 (0x08 + i)
  | .p i => BitVec.ofNat 6 (0x20 + i)
  | .opa => 0x10#6
  | .opb => 0x11#6
  | .res => 0x12#6
  | .det => 0x13#6
  | .ksh => 0x14#6
  | .seed => 0x15#6
  | .rcp => 0x16#6
  | .sumx => 0x17#6
  | .sumxx => 0x18#6
  | .cc => 0x1A#6
  | .cd => 0x1B#6
  | .ce => 0x1C#6
  | .th0 => 0x1D#6
  | .th1 => 0x1E#6

/-- The index of `NCNT` (R10). -/
def ncntIndex : BitVec 6 := 0x19#6

/-- The index of `CMD` (R10, R19). -/
def cmdIndex : BitVec 6 := 0x28#6

/-- The index of `STATUS` (R10, R20). -/
def statusIndex : BitVec 6 := 0x29#6

/-- The "reads" column of R18 (data registers; the constant `NCNT` aside). -/
def readsOf : Instr → List Reg
  | .nop => []
  | .add => [.opa, .opb]
  | .sub => [.opa, .opb]
  | .mul => [.opa, .opb]
  | .shl _ => [.opa]
  | .cmp => [.opa, .opb]
  | .onehot _ => []
  | .recip => [.det]
  | .acc => xRegs
  | .coef => xRegs ++ yRegs ++ [.sumx, .sumxx, .rcp]
  | .predict => xRegs ++ [.th0, .th1]
  | .fit => xRegs ++ yRegs

/-- The "writes" column of R18. -/
def writesOf : Instr → List Reg
  | .nop => []
  | .add => [.res]
  | .sub => [.res]
  | .mul => [.res]
  | .shl _ => [.res]
  | .cmp => []
  | .onehot _ => [.res]
  | .recip => [.ksh, .seed, .rcp]
  | .acc => [.sumx, .sumxx, .det]
  | .coef => [.cc, .cd, .ce, .th0, .th1]
  | .predict => pRegs
  | .fit => [.sumx, .sumxx, .det, .ksh, .seed, .rcp, .cc, .cd, .ce, .th0, .th1]

/-- The "flags it can set" column of R18. -/
def flagsOf : Instr → List Flag
  | .nop => []
  | .add => [.ovf]
  | .sub => [.ovf]
  | .mul => [.ovf]
  | .shl _ => [.ovf]
  | .cmp => [.lt, .eq, .gt]
  | .onehot _ => []
  | .recip => [.ood, .ovf]
  | .acc => [.ovf, .degen]
  | .coef => [.ovf]
  | .predict => [.ovf]
  | .fit => [.ood, .ovf, .degen]

end Sys2Proof.Machine
end

