-- ==== Sys2Proof/Machine/Ops.lean ====
section
/-! DEFINITION. The named operations over the registers: writing a register, completing a command
(20_memory.md R45) with the results its rule gives or, where it read an unwritten register, with
free ones (10_state.md R26), and accepting a command word (R44). The core takes no exception and
has no return from one (60_exceptions.md R190): the one channel for an error is the flags that a
completion writes (R191). -/

namespace Sys2Proof.Machine

/-- A write of one data register, all 32 bits; it is written since reset from then on (R11, R26). -/
def State.writeReg (s : State) (r : Reg) (v : Word) : State :=
  { s with regs := s.regs.set r v, written := s.written.set r true }

/-- The listed writes, in order. -/
def State.writeRegs (s : State) : List (Reg × Word) → State
  | [] => s
  | (r, v) :: rest => (s.writeReg r v).writeRegs rest

/-- Every listed register has been written since reset (R26, R223). -/
def State.specified (s : State) (rs : List Reg) : Bool := rs.all fun r => s.written.get r

/-- What a command reads, and what it writes and flags when all it reads has been written. -/
structure Effect where
  reads : List Reg
  writes : List (Reg × Word)
  flags : List (Flag × Bool)

/-- `complete` of R45: the register writes, the flags, BUSY 0, DONE 1, PEND empty. The error flags
are added to the model's own record (R199). -/
def State.complete (s : State) (ws : List (Reg × Word)) (fs : List (Flag × Bool)) : State :=
  { s.writeRegs ws with
    status := statusCompleted fs
    pend := none
    wait := 0
    errors := s.errors ||| errorBits (statusCompleted fs) }

/-- Free values in place of the computed ones (R26, U5): each register written and each flag
computed takes one; which registers and which flags does not change. -/
def State.freeWrites (s : State) (ws : List (Reg × Word)) : List (Reg × Word) :=
  ws.map fun w => (w.1, Config.freeWord s.draws (.reg w.1))

/-- As `freeWrites`, for the flags a command computes (R26). -/
def State.freeFlags (s : State) (fs : List (Flag × Bool)) : List (Flag × Bool) :=
  fs.map fun f => (f.1, (Config.freeWord s.draws .flags).getLsbD f.1.bit)

/-- The completion of a command with effect `e` (R18, R26, R45). A register that takes a free value
here counts as written (log entry 3). -/
def finish (e : Effect) (s : State) : Host.Outcome State Fault Refusal :=
  .next (if s.specified e.reads then s.complete e.writes e.flags
         else s.complete (s.freeWrites e.writes) (s.freeFlags e.flags))

/-- The completion of an illegal word: ILL alone, no data register changes (R66). -/
def completeIllegal (s : State) : State := s.complete [] [(.ill, true)]

/-- The accept of the command word `w`; `wait` is the number of edges before the completing one
(R44, R230). -/
def accept (s : State) (w : Word) (wait : Nat) : State :=
  { s with pend := some w, status := statusAccepted, wait := wait }

end Sys2Proof.Machine
end

