-- ==== Sys2Proof/Machine/Accumulator.lean ====
section
/-! DEFINITION. The least-squares accumulator: the tree reduction, the sums, the determinant, and
ACC (42_accumulator.md R130 to R137). -/

namespace Sys2Proof.Machine

/-- `tree8(v)`: seven adds in three levels, the pairs and their order fixed (R130). -/
def tree8 (v : Vector Word 8) : Word × Bool :=
  let s6 := fxAdd v[7] v[6]
  let s4 := fxAdd v[5] v[4]
  let s2 := fxAdd v[3] v[2]
  let s0 := fxAdd v[1] v[0]
  let q4 := fxAdd s6.1 s4.1
  let q0 := fxAdd s2.1 s0.1
  let r := fxAdd q4.1 q0.1
  (r.1, s6.2 || s4.2 || s2.2 || s0.2 || q4.2 || q0.2 || r.2)

/-- What `acc` answers (R137). -/
structure AccResult where
  sumx : Word
  sumxx : Word
  det : Word
  degen : Bool
  ovf : Bool
deriving DecidableEq, Repr

/-- The determinant and the degenerate-fit test: `n·Σx² − (Σx)²`, DEGEN for the exact pattern zero
(R135). -/
def determinant (sumx sumxx : Word) : Word × Bool :=
  let t1 := fxMul n8 sumxx
  let t2 := fxMul sumx sumx
  let d := fxSub t1.1 t2.1
  (d.1, t1.2 || t2.2 || d.2)

/-- `acc(X[0..7])` (R134, R135, R137). -/
def acc (x : Vector Word 8) : AccResult :=
  let sq := perLane fun i => fxMul x[i] x[i]
  let sx := tree8 x
  let sxx := tree8 (perLane fun i => sq[i].1)
  let d := determinant sx.1 sxx.1
  { sumx := sx.1
    sumxx := sxx.1
    det := d.1
    degen := decide (d.1 = 0)
    ovf := (anyLane fun i => sq[i].2) || sx.2 || sxx.2 || d.2 }

/-- ACC (R136). -/
def execAcc (s : State) : Host.Outcome State Fault Refusal :=
  let a := acc s.regs.x
  finish
    { reads := xRegs
      writes := [(.sumx, a.sumx), (.sumxx, a.sumxx), (.det, a.det)]
      flags := [(.ovf, a.ovf), (.degen, a.degen)] } s

end Sys2Proof.Machine
end

