-- ==== Sys2Proof/Machine/Control.lean ====
section
/-! DEFINITION. The control command NOP (44_control.md R180). -/

namespace Sys2Proof.Machine

/-- NOP (R180): no register, no flag; it completes like any command. -/
def execNop (s : State) : Host.Outcome State Fault Refusal :=
  finish { reads := [], writes := [], flags := [] } s

end Sys2Proof.Machine
end

