-- ==== Sys2Proof/Machine/FixedPoint.lean ====
section
/-! DEFINITION. The primitive commands ADD, SUB, MUL, SHL, CMP, ONEHOT (40_fixedpoint.md R90 to
R95). -/

namespace Sys2Proof.Machine

/-- A primitive that reads `reads` and answers a result and its overflow bit: RES and OVF. -/
def primitiveEffect (reads : List Reg) (r : Word × Bool) : Effect where
  reads := reads
  writes := [(.res, r.1)]
  flags := [(.ovf, r.2)]

/-- ADD (R90). -/
def execAdd (s : State) : Host.Outcome State Fault Refusal :=
  finish (primitiveEffect [.opa, .opb] (fxAdd s.regs.opa s.regs.opb)) s

/-- SUB (R91). -/
def execSub (s : State) : Host.Outcome State Fault Refusal :=
  finish (primitiveEffect [.opa, .opb] (fxSub s.regs.opa s.regs.opb)) s

/-- MUL (R92). -/
def execMul (s : State) : Host.Outcome State Fault Refusal :=
  finish (primitiveEffect [.opa, .opb] (fxMul s.regs.opa s.regs.opb)) s

/-- SHL #n (R93); OPB is not read. -/
def execShl (n : Nat) (s : State) : Host.Outcome State Fault Refusal :=
  finish (primitiveEffect [.opa] (fxShl s.regs.opa n)) s

/-- CMP (R94): no data register is written, OVF is 0. -/
def execCmp (s : State) : Host.Outcome State Fault Refusal :=
  let c := fxCmp3 s.regs.opa s.regs.opb
  finish { reads := [.opa, .opb], writes := [], flags := [(.lt, c.1), (.eq, c.2.1), (.gt, c.2.2)] } s

/-- ONEHOT #n (R95): it reads no register and computes no flag. -/
def execOnehot (n : Nat) (s : State) : Host.Outcome State Fault Refusal :=
  finish { reads := [], writes := [(.res, fxOnehot n)], flags := [] } s

end Sys2Proof.Machine
end

