-- ==== Sys2Proof/Machine/Reciprocal.lean ====
section
/-! DEFINITION. The Newton-Raphson reciprocal approximator and RECIP (41_reciprocal.md R110 to
R116). -/

namespace Sys2Proof.Machine

/-- What the exponent scan leaves: the count `k`, the running power `p`, the overflow bit. -/
structure ScanResult where
  k : Nat
  p : Word
  ovf : Bool
deriving DecidableEq, Repr

/-- The scan loop (R110): at most `left` further shifts of the running power. -/
def scanFrom (d : Word) : Nat → ScanResult → ScanResult
  | 0, r => r
  | left + 1, r =>
    if fxGt r.p d then r
    else
      let q := fxShl r.p 1
      scanFrom d left { k := r.k + 1, p := q.1, ovf := r.ovf || q.2 }

/-- Exponent discovery: from `p = ONE`, `k = 0`, at most 16 shifts (R110). -/
def scan (d : Word) : ScanResult := scanFrom d 16 { k := 0, p := one, ovf := false }

/-- Seed construction: the bit at position 16 - k (R111). -/
def seedOf (k : Nat) : Word := fxOnehot (16 - k)

/-- One refinement step `x ← x·(2 − D·x)`, three primitives (R112). -/
def refineStep (d x : Word) : Word × Bool :=
  let t := fxMul d x
  let u := fxSub two t.1
  let r := fxMul x u.1
  (r.1, t.2 || u.2 || r.2)

/-- `n` refinement steps, the overflow bits ORed (R112). -/
def refine (d : Word) : Nat → Word × Bool → Word × Bool
  | 0, x => x
  | n + 1, x =>
    let r := refineStep d x.1
    refine d n (r.1, x.2 || r.2)

/-- What `recip(D)` answers (R116). -/
structure RecipResult where
  k : Nat
  seed : Word
  x : Word
  ood : Bool
  ovf : Bool
deriving DecidableEq, Repr

/-- `recip(D)` (R116), with exactly three refinement steps (R2) and the domain test of R113. -/
def recip (d : Word) : RecipResult :=
  let c := scan d
  let seed := seedOf c.k
  let x := refine d 3 (seed, c.ovf)
  { k := c.k
    seed := seed
    x := x.1
    ood := decide (sint d ≤ 0) || !fxGt c.p d
    ovf := x.2 }

/-- `zext_32(k)` (R15). -/
def kshOf (k : Nat) : Word := BitVec.ofNat 32 k

/-- RECIP (R114). -/
def execRecip (s : State) : Host.Outcome State Fault Refusal :=
  let r := recip s.regs.det
  finish
    { reads := [.det]
      writes := [(.ksh, kshOf r.k), (.seed, r.seed), (.rcp, r.x)]
      flags := [(.ood, r.ood), (.ovf, r.ovf)] } s

end Sys2Proof.Machine
end

