-- ==== Sys2Proof/Machine/Solver.lean ====
section
/-! DEFINITION. The regression coefficient solver: COEF, PREDICT, FIT (43_solver.md R150 to R158). -/

namespace Sys2Proof.Machine

/-- The two terms of one lane and its overflow bit (R151). -/
structure LaneTerms where
  t0 : Word
  t1 : Word
  ovf : Bool
deriving DecidableEq, Repr

/-- One lane: `θ0_i = (c + d·x_i)·y_i`, `θ1_i = (d + e·x_i)·y_i`; nothing is fused (R151). -/
def laneTerms (c d e xi yi : Word) : LaneTerms :=
  let m0 := fxMul d xi
  let g0 := fxAdd c m0.1
  let t0 := fxMul g0.1 yi
  let m1 := fxMul e xi
  let g1 := fxAdd d m1.1
  let t1 := fxMul g1.1 yi
  { t0 := t0.1
    t1 := t1.1
    ovf := m0.2 || g0.2 || t0.2 || m1.2 || g1.2 || t1.2 }

/-- What `coef` answers (R152). -/
structure CoefResult where
  c : Word
  d : Word
  e : Word
  th0 : Word
  th1 : Word
  ovf : Bool
deriving DecidableEq, Repr

/-- `coef(X, Y, SUMX, SUMXX, s)` (R150 to R152); in `d` the minus is applied to Σx before the
multiplication (R150). -/
def coef (x y : Vector Word 8) (sumx sumxx s : Word) : CoefResult :=
  let c := fxMul sumxx s
  let nx := fxNeg sumx
  let d := fxMul nx.1 s
  let e := fxMul n8 s
  let t := perLane fun i => laneTerms c.1 d.1 e.1 x[i] y[i]
  let th0 := tree8 (perLane fun i => t[i].t0)
  let th1 := tree8 (perLane fun i => t[i].t1)
  { c := c.1
    d := d.1
    e := e.1
    th0 := th0.1
    th1 := th1.1
    ovf := c.2 || nx.2 || d.2 || e.2 || (anyLane fun i => t[i].ovf) || th0.2 || th1.2 }

/-- One prediction `θ1·x_i + θ0` (R155). -/
def predictLane (th0 th1 xi : Word) : Word × Bool :=
  let m := fxMul th1 xi
  let p := fxAdd m.1 th0
  (p.1, m.2 || p.2)

/-- `predict(X, th0, th1)` (R155): the predictions in input order, and the overflow bit. -/
def predict (x : Vector Word 8) (th0 th1 : Word) : Vector Word 8 × Bool :=
  let t := perLane fun i => predictLane th0 th1 x[i]
  (perLane fun i => t[i].1, anyLane fun i => t[i].2)

/-- What `fit` answers: the answers of its three stages (R157). -/
structure FitResult where
  a : AccResult
  r : RecipResult
  c : CoefResult
deriving DecidableEq, Repr

/-- `fit(X, Y)`: each stage takes exactly what the one before returned, and none looks at a flag
(R157, R194). -/
def fit (x y : Vector Word 8) : FitResult :=
  let a := acc x
  let r := recip a.det
  let c := coef x y a.sumx a.sumxx r.x
  { a := a, r := r, c := c }

/-- COEF (R153). -/
def execCoef (s : State) : Host.Outcome State Fault Refusal :=
  let c := coef s.regs.x s.regs.y s.regs.sumx s.regs.sumxx s.regs.rcp
  finish
    { reads := xRegs ++ yRegs ++ [.sumx, .sumxx, .rcp]
      writes := [(.cc, c.c), (.cd, c.d), (.ce, c.e), (.th0, c.th0), (.th1, c.th1)]
      flags := [(.ovf, c.ovf)] } s

/-- PREDICT (R156); it does not read Y. -/
def execPredict (s : State) : Host.Outcome State Fault Refusal :=
  let p := predict s.regs.x s.regs.th0 s.regs.th1
  finish
    { reads := xRegs ++ [.th0, .th1]
      writes := lanes.map fun i => (.p i, p.1[i])
      flags := [(.ovf, p.2)] } s

/-- FIT (R158): ACC, RECIP and COEF as one command; P is not written. -/
def execFit (s : State) : Host.Outcome State Fault Refusal :=
  let f := fit s.regs.x s.regs.y
  finish
    { reads := xRegs ++ yRegs
      writes :=
        [(.sumx, f.a.sumx), (.sumxx, f.a.sumxx), (.det, f.a.det),
         (.ksh, kshOf f.r.k), (.seed, f.r.seed), (.rcp, f.r.x),
         (.cc, f.c.c), (.cd, f.c.d), (.ce, f.c.e), (.th0, f.c.th0), (.th1, f.c.th1)]
      flags := [(.ood, f.r.ood), (.ovf, f.a.ovf || f.r.ovf || f.c.ovf), (.degen, f.a.degen)] } s

end Sys2Proof.Machine
end

