-- ==== Sys2Proof/Machine/Dispatch.lean ====
section
/-! DEFINITION. One arm per command (30_encoding.md R63). -/

namespace Sys2Proof.Machine

/-- The completion of a decoded command (20_memory.md R45): the result registers and flags its rule
gives, BUSY 0, DONE 1, PEND empty. -/
def exec (i : Instr) (s : State) : Host.Outcome State Fault Refusal :=
  match i with
  | .nop => Sys2Proof.Machine.execNop s
  | .add => Sys2Proof.Machine.execAdd s
  | .sub => Sys2Proof.Machine.execSub s
  | .mul => Sys2Proof.Machine.execMul s
  | .shl n => Sys2Proof.Machine.execShl n s
  | .cmp => Sys2Proof.Machine.execCmp s
  | .onehot n => Sys2Proof.Machine.execOnehot n s
  | .recip => Sys2Proof.Machine.execRecip s
  | .acc => Sys2Proof.Machine.execAcc s
  | .coef => Sys2Proof.Machine.execCoef s
  | .predict => Sys2Proof.Machine.execPredict s
  | .fit => Sys2Proof.Machine.execFit s

end Sys2Proof.Machine
end

