-- ==== Sys2Proof/Machine/Port.lean ====
section
/-! DEFINITION. The host port (20_memory.md R40 to R55) and the reset edge
(70_reset_and_hazards.md R220). -/

namespace Sys2Proof.Machine

/-- `RegRead(idx)` (R41). A data register answers a free value while busy (U4) and while nothing
has written it since reset (R27, U5). -/
def regRead (s : State) (idx : BitVec 6) : Word :=
  match portTarget idx with
  | .status => s.status
  | .ncnt => n8
  | .cmd => 0
  | .reserved => 0
  | .data r =>
    if s.busy then Config.freeWord s.draws .rdata
    else if s.written.get r then s.regs.get r
    else Config.freeWord s.draws .rdata

/-- `RegWrite(idx, v)` (R42): no effect while busy, at `STATUS`, at `NCNT` and at a reserved index;
at `CMD` the accept (R44), with a free latency that may depend on the word and on
the data registers (R230, log entry 6). -/
def regWrite (s : State) (idx : BitVec 6) (v : Word) : State :=
  if s.busy then s
  else
    match portTarget idx with
    | .cmd => accept s v (Config.freeLatency s.draws v s.regs.get)
    | .status => s
    | .ncnt => s
    | .reserved => s
    | .data r => s.writeReg r v

/-- The `rdata` output in a cycle: `RegRead(addr)` with `re = 1`, unspecified with `re = 0` (R43, U6). -/
def portRead (s : State) (pin : PortIn) : Word :=
  if pin.re then regRead s pin.addr else Config.freeWord s.draws .rdata

/-- The register file of which nothing is known: a free value in every data register (R27, U8). -/
def freeRegs (draw : Nat) : RegFile Word where
  x := perLane fun i => Config.freeWord draw (.reg (.x i))
  y := perLane fun i => Config.freeWord draw (.reg (.y i))
  p := perLane fun i => Config.freeWord draw (.reg (.p i))
  opa := Config.freeWord draw (.reg .opa)
  opb := Config.freeWord draw (.reg .opb)
  res := Config.freeWord draw (.reg .res)
  det := Config.freeWord draw (.reg .det)
  ksh := Config.freeWord draw (.reg .ksh)
  seed := Config.freeWord draw (.reg .seed)
  rcp := Config.freeWord draw (.reg .rcp)
  sumx := Config.freeWord draw (.reg .sumx)
  sumxx := Config.freeWord draw (.reg .sumxx)
  cc := Config.freeWord draw (.reg .cc)
  cd := Config.freeWord draw (.reg .cd)
  ce := Config.freeWord draw (.reg .ce)
  th0 := Config.freeWord draw (.reg .th0)
  th1 := Config.freeWord draw (.reg .th1)

/-- A rising edge with `rst = 1` (R220): PEND empty, STATUS 0, a command in progress abandoned,
every data register unspecified. -/
def resetEdge (s : State) : State :=
  { s with
    regs := freeRegs s.draws
    status := 0
    pend := none
    written := RegFile.const false
    wait := 0 }

end Sys2Proof.Machine
end

