-- ==== Sys2Proof/Machine/Clock.lean ====
section
/-! DEFINITION. One rising clock edge: the host's access and the core's own move (20_memory.md R43,
R45, R54). -/

namespace Sys2Proof.Machine

/-- The completion of the command word `w` (R45): every word decodes to a command or is illegal
(R65, R66). -/
def completeWord (w : Word) (s : State) : Host.Outcome State Fault Refusal :=
  match decode w with
  | .ok i => exec i s
  | .error _ => .next (completeIllegal s)

/-- The core's own move at an edge, given what was pending before it: nothing while idle (R54), the
completion once the latency has passed (R45, R230). -/
def coreMove (pending : Option Word) (s : State) : Host.Outcome State Fault Refusal :=
  match pending with
  | none => .next s
  | some w => if s.wait = 0 then completeWord w s else .next { s with wait := s.wait - 1 }

/-- The read data of the cycle is that of the state before the edge (R43). -/
def observe (pin : PortIn) (s : State) : State :=
  { s with rdata := portRead s pin, draws := s.draws + 1 }

/-- The host's write of the cycle, if there is one (R43). -/
def hostWrite (pin : PortIn) (s : State) : State :=
  if pin.we then regWrite s pin.addr pin.wdata else s

/-- A rising edge of `clk` with `pin` on the port (R43). With `rst = 1` it is the reset and nothing
else (R220); a write made while a command is pending is gone before the command completes (R46). -/
def clockEdge (pin : PortIn) (s : State) : Host.Outcome State Fault Refusal :=
  if pin.rst then .next (resetEdge (observe pin s))
  else coreMove s.pend (hostWrite pin (observe pin s))

/-- What the host drives in this cycle; idle once nothing is left (log entry 7). -/
def currentPin (s : State) : PortIn := s.pins.headD PortIn.idle

/-- The cycle's entry is used up. -/
def dropPin (s : State) : State := { s with pins := s.pins.tail }

end Sys2Proof.Machine
end

