-- ==== Sys2Proof/Machine/Step.lean ====
section
/-! DEFINITION. One step of the machine, and the state in which the next step runs a given
instruction. -/

namespace Sys2Proof.Machine

/-- One clock cycle (20_memory.md R43, R54). -/
def step (s : State) : Host.Outcome State Fault Refusal := clockEdge (currentPin s) (dropPin s)

/-- The command word is accepted (R44) and its latency has passed, with the host idle in the coming
cycle: the next step completes it. It stands for the host's write to CMD (log entry 9). -/
def State.withFetchWord (s : State) (nbits w : Nat) : State :=
  { accept s (tableWord nbits w) 0 with pins := PortIn.idle :: s.pins }

end Sys2Proof.Machine
end

