-- ==== Sys2Proof/Safety.lean ====
section
/-! DEFINITION. What a claim about a run may assume or promise: the states in which STATUS and PEND
agree, the record of reported errors, and the host that obeys the busy rule. -/

namespace Sys2Proof.Machine

/-- The bits of `STATUS` that R20 reserves: 7:6 and 31:11. -/
def reservedStatusBits : Word := 0xFFFFF8C0#32

/-- `STATUS` and `PEND` agree as R20, R21, R23 and R193 say. -/
structure State.Consistent (s : State) : Prop where
  /-- Reserved bits read 0 (R20). -/
  reserved : s.status &&& reservedStatusBits = 0
  /-- "BUSY = 1 exactly when PEND is not empty" (R20). -/
  busyPend : s.busy = s.pend.isSome
  /-- From the accept to the completion DONE and every flag are 0 (R20, R21). -/
  busyOnly : s.pend.isSome = true → s.status = statusAccepted
  /-- A flag stands only beside DONE: an idle core that has completed nothing reads 0 (R20, R221). -/
  idleFlags : s.pend = none → s.doneFlag = false → s.status = 0
  /-- ILL excludes every other flag (R193). -/
  illAlone : s.flag .ill = true → s.status = 0x00000006#32
  /-- Nothing is awaited while nothing is pending. -/
  waitIdle : s.pend = none → s.wait = 0

/-- No command has reported ILL, OOD, OVF or DEGEN since the record began (R199). -/
def State.noErrors (s : State) : Bool := s.errors == 0

/-- The registers a command reads have all been written since reset (R223). -/
def State.ready (s : State) (i : Instr) : Bool := s.specified (readsOf i)

/-- In the coming cycle the host does not reset. -/
def State.resetLow (s : State) : Bool := !(currentPin s).rst

/-- In the coming cycle the host obeys the busy rule: no write while a command is in progress
(R231). -/
def State.hostObeys (s : State) : Bool := !(s.busy && (currentPin s).we)

/-- `t` is `s` after the completion of a command (R18, R45): each register of `dest` holds what
`value` gives and is written; every other register is as before (the frame rule); `STATUS` is
`status`, PEND is empty. Of the model's own fields `wait` is 0 (log entry 6), the record of error
flags takes this completion's (log entry 11), and `pins`, `rdata` and `draws` are as before (log
entries 7, 8 and 4). -/
structure CompletedWith (s t : State) (dest : List Reg) (value : Reg → Word) (status : Word) :
    Prop where
  results : ∀ r ∈ dest, t.regs.get r = value r ∧ t.written.get r = true
  frame : ∀ r, r ∉ dest → t.regs.get r = s.regs.get r ∧ t.written.get r = s.written.get r
  statusWord : t.status = status
  pend : t.pend = none
  wait : t.wait = 0
  pins : t.pins = s.pins
  rdata : t.rdata = s.rdata
  draws : t.draws = s.draws
  errors : t.errors = s.errors ||| status.extractLsb' 2 4

/-- DONE, with OVF as given and every other flag 0 (R20). -/
def doneOvf (ovf : Bool) : Word := if ovf then 0x00000012#32 else 0x00000002#32

/-- DONE with OOD, OVF and DEGEN as given, every other flag 0 (R20). -/
def doneErrors (ood ovf degen : Bool) : Word :=
  doneOvf ovf ||| (if ood then 0x00000008#32 else 0) ||| (if degen then 0x00000020#32 else 0)

end Sys2Proof.Machine
end

