-- ==== Sys2Proof/Certificates/Slice0/Obligations.lean ====
section
/-! DEFINITION. The statements about the model, from the numbered rules of the spec. In a statement,
`CompletedWith s t dest value status` says the whole frame of a completion: the registers of `dest`
hold `value` and are written, every other data register and its written bit are as before, STATUS is
`status`, PEND is empty. It frames the model's own fields too, which is the model's choice and no
rule of the spec: `draws` (log entry 4), `wait` (6), `pins` (7), `rdata` (8), `errors` (11). The
core has no memory (20_memory.md R40): the data registers are all there is to frame. -/

open Sys2Proof Sys2Proof.Machine

/-! ## Encoding -/

/-- Decoding the word of a well-formed command gives the command back, with every immediate
(30_encoding.md section 3). -/
def Obligations.DecodeOfEncodeIsTheInstruction : Prop :=
  ∀ i : Instr, i.wellFormed = true → decode (encode i) = .ok i

/-- A word that decodes is the word of the command it decodes to, and that command is well formed;
so two different legal words are two different commands (30_encoding.md section 3). -/
def Obligations.EncodeOfDecodeIsTheWord : Prop :=
  (∀ (w : Word) (i : Instr), decode w = .ok i → i.wellFormed = true ∧ encode i = w) ∧
  ∀ (w w' : Word) (i : Instr), decode w = .ok i → decode w' = .ok i → w = w'

/-- Exactly 74 words are legal: ten of format N and 32 each for SHL and ONEHOT (30_encoding.md
section 3). -/
def Obligations.SeventyFourLegalWords : Prop :=
  ∃ legal : List Word, legal.length = 74 ∧ legal.Nodup ∧
    (∀ w, w ∈ legal ↔ ∃ i, decode w = .ok i) ∧
    ∀ w, w ∈ legal ↔
      w ∈ [0x00#32, 0x01#32, 0x02#32, 0x03#32, 0x05#32, 0x10#32, 0x11#32, 0x12#32, 0x13#32,
        0x14#32] ∨
      ∃ n < 32, w.toNat = 0x04 + n * 256 ∨ w.toNat = 0x06 + n * 256

/-- Words written out from the map of 30_encoding.md section 3 decode to the commands they stand
for. -/
def Obligations.WordsOfTheMapDecode : Prop :=
  decode 0x00000000#32 = .ok .nop ∧ decode 0x00000003#32 = .ok .mul ∧
  decode 0x00000404#32 = .ok (.shl 4) ∧ decode 0x00001F06#32 = .ok (.onehot 31) ∧
  decode 0x00000010#32 = .ok .recip ∧ decode 0x00000011#32 = .ok .acc ∧
  decode 0x00000014#32 = .ok .fit ∧ decode 0x00002004#32 = .error .reservedBits ∧
  decode 0x00000101#32 = .error .immediateNotZero ∧
  decode 0x00000015#32 = .error .unassignedOpcode

/-! ## The fixed-point primitives -/

/-- `add` (R83): the wrapped exact sum; the exact value without overflow, off by 65536.0 with it;
overflow exactly when the operands' signs agree and the result's differs. -/
def Obligations.AddWrapsAndReportsOverflow : Prop :=
  ∀ a b : Word,
    fxAdd a b = (wrap32 (sint a + sint b), !fits32 (sint a + sint b)) ∧
    ((fxAdd a b).2 = false → val (fxAdd a b).1 = val a + val b) ∧
    ((fxAdd a b).2 = true → val (fxAdd a b).1 = val a + val b + 65536 ∨
      val (fxAdd a b).1 = val a + val b - 65536) ∧
    ((fxAdd a b).2 = true ↔ a.msb = b.msb ∧ (fxAdd a b).1.msb ≠ a.msb)

/-- `sub` (R84): the wrapped exact difference; overflow exactly when the operands' signs differ and
the result's differs from the first one's. -/
def Obligations.SubWrapsAndReportsOverflow : Prop :=
  ∀ a b : Word,
    fxSub a b = (wrap32 (sint a - sint b), !fits32 (sint a - sint b)) ∧
    ((fxSub a b).2 = true ↔ a.msb ≠ b.msb ∧ (fxSub a b).1.msb ≠ a.msb)

/-- `neg` (R85): subtraction from zero; only the most negative pattern overflows, to itself. -/
def Obligations.NegIsSubtractionFromZero : Prop :=
  (∀ a : Word, fxNeg a = fxSub 0 a ∧ (fxNeg a).1 = wrap32 (-sint a) ∧
    ((fxNeg a).2 = true ↔ a = 0x80000000#32)) ∧
  (fxNeg 0x80000000#32).1 = 0x80000000#32 ∧ fxNeg 0 = (0, false)

/-- `mul` (R86): the floor of the exact product, wrapped; bits 47:16 of the 64-bit product of the
sign-extended operands; overflow unless bits 63:47 are all equal; the value within one ulp below the
exact product without overflow; commutative. -/
def Obligations.MulIsTheFlooredProduct : Prop :=
  ∀ a b : Word,
    fxMul a b = (wrap32 ⌊((sint a * sint b : Int) : Rat) / 65536⌋,
      !fits32 ⌊((sint a * sint b : Int) : Rat) / 65536⌋) ∧
    (fxMul a b).1 = (a.signExtend 64 * b.signExtend 64).extractLsb' 16 32 ∧
    ((fxMul a b).2 = false ↔
      (a.signExtend 64 * b.signExtend 64).extractLsb' 47 17 = 0 ∨
      (a.signExtend 64 * b.signExtend 64).extractLsb' 47 17 = BitVec.allOnes 17) ∧
    ((fxMul a b).2 = false →
      val a * val b - 1 / 65536 < val (fxMul a b).1 ∧ val (fxMul a b).1 ≤ val a * val b) ∧
    fxMul a b = fxMul b a

/-- `shl` (R87): the pattern shifted left with zeros entering; overflow exactly when the n + 1 top
bits are not all equal; multiplication by 2^n without overflow; the identity at 0. -/
def Obligations.ShlShiftsThePattern : Prop :=
  (∀ (a : Word) (n : Nat), n < 32 →
    fxShl a n = (wrap32 (sint a * 2 ^ n), !fits32 (sint a * 2 ^ n)) ∧
    (fxShl a n).1 = a <<< n ∧
    ((fxShl a n).2 = true ↔ ∃ j, 31 - n ≤ j ∧ j < 31 ∧ a.getLsbD j ≠ a.getLsbD 31) ∧
    ((fxShl a n).2 = false → val (fxShl a n).1 = val a * 2 ^ n)) ∧
  (∀ a : Word, fxShl a 0 = (a, false)) ∧
  ∀ (w : Word) (n : Nat), decode w = .ok (.shl n) → n < 32

/-- Comparison (R89): signed, of the patterns and so of the values; exactly one of LT, EQ, GT. -/
def Obligations.ComparisonIsSigned : Prop :=
  (∀ a b : Word,
    (fxGt a b = true ↔ sint a > sint b) ∧ (fxGt a b = true ↔ val a > val b) ∧
    ((fxCmp3 a b).1 = true ↔ sint a < sint b) ∧ ((fxCmp3 a b).2.1 = true ↔ a = b) ∧
    (fxCmp3 a b).2.2 = fxGt a b ∧
    (fxCmp3 a b = (true, false, false) ∨ fxCmp3 a b = (false, true, false) ∨
      fxCmp3 a b = (false, false, true))) ∧
  fxGt 0x7FFFFFFF#32 0x80000000#32 = true

/-- `onehot` (R96): bit n alone; 2^(n-16) as a value for n up to 30, -32768.0 for n = 31. -/
def Obligations.OnehotIsOneBit : Prop :=
  ∀ n : Nat, n < 32 →
    (fxOnehot n).toNat = 2 ^ n ∧ (∀ j, (fxOnehot n).getLsbD j = true ↔ j = n) ∧
    (n ≤ 30 → val (fxOnehot n) = (2 : Rat) ^ n / 65536) ∧
    (n = 31 → val (fxOnehot n) = -32768)

/-- The arithmetic laws (R97, items 1 to 5). -/
def Obligations.ArithmeticLaws : Prop :=
  (∀ a b : Word, (fxAdd a b).1.toNat = (a.toNat + b.toNat) % 2 ^ 32 ∧
    ((fxSub a b).1.toNat : Int) = ((a.toNat : Int) - b.toNat) % 2 ^ 32) ∧
  (∀ (a : Word) (n : Nat), n < 32 → (fxShl a n).1.toNat = a.toNat * 2 ^ n % 2 ^ 32) ∧
  (∀ a b c : Word, (fxAdd a b).1 = (fxAdd b a).1 ∧
    (fxAdd (fxAdd a b).1 c).1 = (fxAdd a (fxAdd b c).1).1 ∧ (fxAdd a 0).1 = a ∧
    (fxSub a b).1 = (fxAdd a (fxNeg b).1).1) ∧
  (∀ a b : Word, fxMul a b = fxMul b a) ∧
  (∃ a b c : Word, (fxMul (fxMul a b).1 c).1 ≠ (fxMul a (fxMul b c).1).1) ∧
  (∃ a b c : Word, (fxMul a (fxAdd b c).1).1 ≠ (fxAdd (fxMul a b).1 (fxMul a c).1).1) ∧
  (∀ a : Word, fxMul a one = (a, false) ∧ fxMul a 0 = (0, false) ∧
    (fxMul a 0xFFFF0000#32).1 = (fxNeg a).1 ∧
    ((fxMul a 0xFFFF0000#32).2 = true ↔ a = 0x80000000#32)) ∧
  (∀ (a : Word) (j : Nat), j ≤ 14 → fxMul a (fxOnehot (16 + j)) = fxShl a j) ∧
  ∀ (a : Word) (j : Nat), 1 ≤ j → j ≤ 16 → fxMul a (fxOnehot (16 - j)) = (a.sshiftRight j, false)

/-! ## The primitive commands -/

/-- ADD (R90), from every state in which OPA and OPB have been written. What it says of the model's
own fields is the model's choice (log entries 4, 6, 7, 8, 11). -/
def Obligations.AddCompletes : Prop :=
  decode 0x00000001#32 = .ok .add ∧
  ∀ s : State, s.written.opa = true → s.written.opb = true →
    ∃ t, exec .add s = .next t ∧
      CompletedWith s t [.res] (fun _ => s.regs.opa + s.regs.opb)
        (doneOvf (!fits32 (sint s.regs.opa + sint s.regs.opb)))

/-- SUB (R91), from every state in which OPA and OPB have been written. What it says of the model's
own fields is the model's choice (log entries 4, 6, 7, 8, 11). -/
def Obligations.SubCompletes : Prop :=
  decode 0x00000002#32 = .ok .sub ∧
  ∀ s : State, s.written.opa = true → s.written.opb = true →
    ∃ t, exec .sub s = .next t ∧
      CompletedWith s t [.res] (fun _ => s.regs.opa - s.regs.opb)
        (doneOvf (!fits32 (sint s.regs.opa - sint s.regs.opb)))

/-- MUL (R92), from every state in which OPA and OPB have been written: RES is bits 47:16 of the
64-bit product, OVF is 0 exactly when bits 63:47 are all equal. What it says of the model's own
fields is the model's choice (log entries 4, 6, 7, 8, 11). -/
def Obligations.MulCompletes : Prop :=
  decode 0x00000003#32 = .ok .mul ∧
  ∀ s : State, s.written.opa = true → s.written.opb = true →
    ∃ t o, exec .mul s = .next t ∧
      CompletedWith s t [.res]
        (fun _ => (s.regs.opa.signExtend 64 * s.regs.opb.signExtend 64).extractLsb' 16 32)
        (doneOvf o) ∧
      (o = false ↔
        (s.regs.opa.signExtend 64 * s.regs.opb.signExtend 64).extractLsb' 47 17 = 0 ∨
        (s.regs.opa.signExtend 64 * s.regs.opb.signExtend 64).extractLsb' 47 17 =
          BitVec.allOnes 17)

/-- SHL #n (R93), for every n in 0..31, from every state in which OPA has been written; OPB need not
have been. What it says of the model's own fields is the model's choice (log entries 4, 6, 7, 8,
11). -/
def Obligations.ShlCompletes : Prop :=
  ∀ n : Nat, n < 32 → decode (BitVec.ofNat 32 (0x04 + n * 256)) = .ok (.shl n) ∧
  ∀ s : State, s.written.opa = true →
    ∃ t o, exec (.shl n) s = .next t ∧
      CompletedWith s t [.res] (fun _ => s.regs.opa <<< n) (doneOvf o) ∧
      (o = true ↔ ∃ j, 31 - n ≤ j ∧ j < 31 ∧ s.regs.opa.getLsbD j ≠ s.regs.opa.getLsbD 31)

/-- CMP (R94), from every state in which OPA and OPB have been written: exactly one of LT, EQ, GT,
by signed comparison; no register changes, OVF is 0. What it says of the model's own fields is the
model's choice (log entries 4, 6, 7, 8, 11). -/
def Obligations.CmpCompletes : Prop :=
  decode 0x00000005#32 = .ok .cmp ∧
  ∀ s : State, s.written.opa = true → s.written.opb = true →
    ∃ t, exec .cmp s = .next t ∧
      CompletedWith s t [] (fun _ => 0)
        (if sint s.regs.opa < sint s.regs.opb then 0x00000102#32
         else if s.regs.opa = s.regs.opb then 0x00000202#32
         else 0x00000402#32)

/-- ONEHOT #n (R95), for every n in 0..31, from every state. What it says of the model's own fields
is the model's choice (log entries 4, 6, 7, 8, 11). -/
def Obligations.OnehotCompletes : Prop :=
  ∀ n : Nat, n < 32 → decode (BitVec.ofNat 32 (0x06 + n * 256)) = .ok (.onehot n) ∧
  ∀ s : State, ∃ t, exec (.onehot n) s = .next t ∧
    CompletedWith s t [.res] (fun _ => BitVec.twoPow 32 n) 0x00000002#32

/-- NOP (44_control.md), from every state: no register changes and every flag reads 0. What it says
of the model's own fields is the model's choice (log entries 4, 6, 7, 8, 11). -/
def Obligations.NopCompletes : Prop :=
  decode 0x00000000#32 = .ok .nop ∧
  ∀ s : State, ∃ t, exec .nop s = .next t ∧
    CompletedWith s t [] (fun _ => 0) 0x00000002#32

/-! ## The reciprocal approximator -/

/-- The scan in closed form (R115): row by row the count, the final power and the overflow. The
shifts that overflow are the 15th and the 16th, of 0x40000000 and of 0x80000000, and no earlier one;
15 is never the final count. -/
def Obligations.ScanClosedForm : Prop :=
  (∀ d : Word,
    (sint d < 0x10000 → scan d = { k := 0, p := 0x00010000#32, ovf := false }) ∧
    (∀ j : Nat, 1 ≤ j → j ≤ 14 → (2 : Int) ^ (15 + j) ≤ sint d → sint d < (2 : Int) ^ (16 + j) →
      scan d = { k := j, p := fxOnehot (16 + j), ovf := false }) ∧
    (sint d ≥ 0x40000000 → scan d = { k := 16, p := 0, ovf := true }) ∧
    (scan d).k ≠ 15) ∧
  (∀ n : Nat, 1 ≤ n → n ≤ 14 → fxShl (fxOnehot (15 + n)) 1 = (fxOnehot (16 + n), false)) ∧
  one = fxOnehot 16 ∧ fxOnehot (16 + 14) = 0x40000000#32 ∧
  fxShl 0x40000000#32 1 = (0x80000000#32, true) ∧ fxShl 0x80000000#32 1 = (0, true)

/-- The seed (R111): for k in 0..16 the one bit at position 16 - k, whose value is 2^-k; the scan
never leaves another k. -/
def Obligations.SeedIsTheBitAtSixteenMinusK : Prop :=
  (∀ k : Nat, k ≤ 16 → seedOf k = fxOnehot (16 - k) ∧ val (seedOf k) * 2 ^ k = 1) ∧
  ∀ d : Word, (recip d).k ≤ 16 ∧ (recip d).k ≠ 15 ∧ (recip d).seed = seedOf (recip d).k

/-- The domain (R113): OOD exactly outside 0x00000001..0x3FFFFFFF; the data path does not depend on
it: k, seed and x come from the scan, the seed construction and three refinement steps. -/
def Obligations.OodIsOutsideTheDomain : Prop :=
  ∀ d : Word,
    ((recip d).ood = true ↔ ¬ (1 ≤ sint d ∧ sint d ≤ 0x3FFFFFFF)) ∧
    ((recip d).ood = true ↔ sint d ≤ 0 ∨ fxGt (scan d).p d = false) ∧
    (recip d).k = (scan d).k ∧ (recip d).seed = seedOf (scan d).k ∧
    (recip d).x = (refine d 3 (seedOf (scan d).k, (scan d).ovf)).1

/-- What the estimate is worth on 0.5 <= D < 16384.0 (41_reciprocal.md section 2): no flag, the seed
within a factor of 2 of the reciprocal, and with E the truncated true reciprocal, -2 <= E - x <=
E/256 + 2. -/
def Obligations.ReciprocalIsAccurate : Prop :=
  ∀ d : Word, 0x8000 ≤ sint d → sint d ≤ 0x3FFFFFFF →
    (recip d).ood = false ∧ (recip d).ovf = false ∧
    1 / 2 ≤ val (recip d).seed * val d ∧ val (recip d).seed * val d < 1 ∧
    -2 ≤ 2 ^ 32 / sint d - sint (recip d).x ∧
    256 * (2 ^ 32 / sint d - sint (recip d).x) ≤ 2 ^ 32 / sint d + 512

/-- The regions of D in which the estimate is poor or meaningless (41_reciprocal.md section 2): 0 <
D < 0.5 is unflagged, neither OOD nor OVF, and never above 8.0; D = 0 gives 8.0 with OOD; D >=
16384.0 gives one ulp with OOD and OVF. -/
def Obligations.ReciprocalOutsideTheAccurateRange : Prop :=
  (∀ d : Word, 1 ≤ sint d → sint d ≤ 0x7FFF →
    (recip d).ood = false ∧ (recip d).ovf = false ∧ (recip d).k = 0 ∧
    (recip d).seed = 0x00010000#32 ∧ sint (recip d).x ≤ 0x80000) ∧
  recip 0 = { k := 0, seed := 0x00010000#32, x := 0x00080000#32, ood := true, ovf := false } ∧
  (∀ d : Word, sint d < 0 → (recip d).ood = true ∧ (recip d).k = 0 ∧
    (recip d).seed = 0x00010000#32) ∧
  ∀ d : Word, sint d ≥ 0x40000000 →
    recip d = { k := 16, seed := 0x00000001#32, x := 0x00000001#32, ood := true, ovf := true }

/-- RECIP (R114), from every state in which DET has been written. What it says of the model's own
fields is the model's choice (log entries 4, 6, 7, 8, 11). -/
def Obligations.RecipCompletes : Prop :=
  decode 0x00000010#32 = .ok .recip ∧
  ∀ s : State, s.written.det = true →
    ∃ t, exec .recip s = .next t ∧
      CompletedWith s t [.ksh, .seed, .rcp]
        (fun r => match r with
          | .ksh => BitVec.ofNat 32 (recip s.regs.det).k
          | .seed => (recip s.regs.det).seed
          | _ => (recip s.regs.det).x)
        (doneErrors (recip s.regs.det).ood (recip s.regs.det).ovf false)

/-! ## The accumulator -/

/-- The tree (R132): the total is the wrapped exact sum, the same under every permutation of the
eight inputs; the overflow bit is not. -/
def Obligations.TreeSumsInAnyOrder : Prop :=
  (∀ v : Vector Word 8, (tree8 v).1 = wrap32 (∑ i : Fin 8, sint v[i])) ∧
  (∀ (v : Vector Word 8) (π : Equiv.Perm (Fin 8)),
    (tree8 (perLane fun i => v[π i])).1 = (tree8 v).1) ∧
  ∃ (v : Vector Word 8) (π : Equiv.Perm (Fin 8)),
    (tree8 v).2 = true ∧ (tree8 (perLane fun i => v[π i])).2 = false ∧ (tree8 v).1 = 0

/-- ACC (R136), from every state in which X[0..7] have been written: the sums, the determinant 8·Σx²
− (Σx)² and DEGEN for a zero determinant; OVF exactly when some primitive wrapped. What it says of
the model's own fields is the model's choice (log entries 4, 6, 7, 8, 11). -/
def Obligations.AccCompletes : Prop :=
  decode 0x00000011#32 = .ok .acc ∧
  ∀ s : State, (∀ i : Fin 8, s.written.x[i] = true) →
    ∃ t o, exec .acc s = .next t ∧
      CompletedWith s t [.sumx, .sumxx, .det]
        (fun r => match r with
          | .sumx => wrap32 (∑ i : Fin 8, sint s.regs.x[i])
          | .sumxx => wrap32 (∑ i : Fin 8, sint (fxMul s.regs.x[i] s.regs.x[i]).1)
          | _ => (fxSub (fxMul 0x00080000#32 t.regs.sumxx).1 (fxMul t.regs.sumx t.regs.sumx).1).1)
        (doneErrors false o (decide (t.regs.det = 0))) ∧
      (o = true ↔
        (∃ i : Fin 8, (fxMul s.regs.x[i] s.regs.x[i]).2 = true) ∨
        (tree8 s.regs.x).2 = true ∨
        (tree8 (perLane fun i => (fxMul s.regs.x[i] s.regs.x[i]).1)).2 = true ∨
        (fxMul 0x00080000#32 t.regs.sumxx).2 = true ∨
        (fxMul t.regs.sumx t.regs.sumx).2 = true ∨
        (fxSub (fxMul 0x00080000#32 t.regs.sumxx).1 (fxMul t.regs.sumx t.regs.sumx).1).2 = true)

/-! ## The solver -/

/-- COEF (R153), from every state in which all it reads has been written: c = Σx²·s, d = (−Σx)·s, e
= 8·s, θ0 the sum of (c + d·x_i)·y_i and θ1 the sum of (d + e·x_i)·y_i; OVF exactly when some
primitive wrapped. What it says of the model's own fields is the model's choice (log entries 4, 6,
7, 8, 11). -/
def Obligations.CoefCompletes : Prop :=
  decode 0x00000012#32 = .ok .coef ∧
  ∀ s : State, (∀ i : Fin 8, s.written.x[i] = true) → (∀ i : Fin 8, s.written.y[i] = true) →
    s.written.sumx = true → s.written.sumxx = true → s.written.rcp = true →
    ∃ t o, exec .coef s = .next t ∧
      CompletedWith s t [.cc, .cd, .ce, .th0, .th1]
        (fun r => match r with
          | .cc => (fxMul s.regs.sumxx s.regs.rcp).1
          | .cd => (fxMul (fxNeg s.regs.sumx).1 s.regs.rcp).1
          | .ce => (fxMul 0x00080000#32 s.regs.rcp).1
          | .th0 => wrap32 (∑ i : Fin 8, sint
              (fxMul (fxAdd t.regs.cc (fxMul t.regs.cd s.regs.x[i]).1).1 s.regs.y[i]).1)
          | _ => wrap32 (∑ i : Fin 8, sint
              (fxMul (fxAdd t.regs.cd (fxMul t.regs.ce s.regs.x[i]).1).1 s.regs.y[i]).1))
        (doneOvf o) ∧
      (o = true ↔
        (fxMul s.regs.sumxx s.regs.rcp).2 = true ∨ (fxNeg s.regs.sumx).2 = true ∨
        (fxMul (fxNeg s.regs.sumx).1 s.regs.rcp).2 = true ∨
        (fxMul 0x00080000#32 s.regs.rcp).2 = true ∨
        (∃ i : Fin 8,
          (fxMul t.regs.cd s.regs.x[i]).2 = true ∨
          (fxAdd t.regs.cc (fxMul t.regs.cd s.regs.x[i]).1).2 = true ∨
          (fxMul (fxAdd t.regs.cc (fxMul t.regs.cd s.regs.x[i]).1).1 s.regs.y[i]).2 = true ∨
          (fxMul t.regs.ce s.regs.x[i]).2 = true ∨
          (fxAdd t.regs.cd (fxMul t.regs.ce s.regs.x[i]).1).2 = true ∨
          (fxMul (fxAdd t.regs.cd (fxMul t.regs.ce s.regs.x[i]).1).1 s.regs.y[i]).2 = true) ∨
        (tree8 (perLane fun i =>
          (fxMul (fxAdd t.regs.cc (fxMul t.regs.cd s.regs.x[i]).1).1 s.regs.y[i]).1)).2 = true ∨
        (tree8 (perLane fun i =>
          (fxMul (fxAdd t.regs.cd (fxMul t.regs.ce s.regs.x[i]).1).1 s.regs.y[i]).1)).2 = true)

/-- PREDICT (R156), from every state in which X, TH0 and TH1 have been written: P[i] = θ1·X[i] + θ0
for each i, in input order; OVF exactly when some primitive wrapped. What it says of the model's own
fields is the model's choice (log entries 4, 6, 7, 8, 11). -/
def Obligations.PredictCompletes : Prop :=
  decode 0x00000013#32 = .ok .predict ∧
  ∀ s : State, (∀ i : Fin 8, s.written.x[i] = true) → s.written.th0 = true →
    s.written.th1 = true →
    ∃ t o, exec .predict s = .next t ∧
      CompletedWith s t pRegs
        (fun r => match r with
          | .p i => (fxAdd (fxMul s.regs.th1 s.regs.x[i]).1 s.regs.th0).1
          | _ => 0)
        (doneOvf o) ∧
      (o = true ↔ ∃ i : Fin 8, (fxMul s.regs.th1 s.regs.x[i]).2 = true ∨
        (fxAdd (fxMul s.regs.th1 s.regs.x[i]).1 s.regs.th0).2 = true)

/-- FIT (43_solver.md section 3), from every state in which X and Y have been written: the results
of the three stages, each fed by the one before. What it says of the model's own fields is the
model's choice (log entries 4, 6, 7, 8, 11). -/
def Obligations.FitCompletes : Prop :=
  decode 0x00000014#32 = .ok .fit ∧
  ∀ s : State, (∀ i : Fin 8, s.written.x[i] = true) → (∀ i : Fin 8, s.written.y[i] = true) →
    ∃ t a q c, a = acc s.regs.x ∧ q = recip a.det ∧
      c = coef s.regs.x s.regs.y a.sumx a.sumxx q.x ∧
      exec .fit s = .next t ∧
      CompletedWith s t
        [.sumx, .sumxx, .det, .ksh, .seed, .rcp, .cc, .cd, .ce, .th0, .th1]
        (fun r => match r with
          | .sumx => a.sumx | .sumxx => a.sumxx | .det => a.det
          | .ksh => BitVec.ofNat 32 q.k | .seed => q.seed | .rcp => q.x
          | .cc => c.c | .cd => c.d | .ce => c.e | .th0 => c.th0 | _ => c.th1)
        (doneErrors q.ood (a.ovf || q.ovf || c.ovf) a.degen)

/-- FIT leaves every data register as ACC, RECIP, COEF issued in that order leave it, and its flags
are the OR of theirs (43_solver.md section 3). -/
def Obligations.FitIsAccThenRecipThenCoef : Prop :=
  ∀ s : State, (∀ i : Fin 8, s.written.x[i] = true) → (∀ i : Fin 8, s.written.y[i] = true) →
    ∃ a b c f, exec .acc s = .next a ∧ exec .recip a = .next b ∧ exec .coef b = .next c ∧
      exec .fit s = .next f ∧ f.regs = c.regs ∧ f.written = c.written ∧
      f.status = a.status ||| b.status ||| c.status

/-- The order of the samples does not matter (43_solver.md section 3): after FIT on the same pairs
in another order, every register FIT writes is bit-identical. -/
def Obligations.FitIgnoresTheOrderOfTheSamples : Prop :=
  ∀ (π : Equiv.Perm (Fin 8)) (s s' : State),
    (∀ i : Fin 8, s.written.x[i] = true) → (∀ i : Fin 8, s.written.y[i] = true) →
    (∀ i : Fin 8, s'.written.x[i] = true) → (∀ i : Fin 8, s'.written.y[i] = true) →
    (∀ i : Fin 8, s'.regs.x[i] = s.regs.x[π i]) → (∀ i : Fin 8, s'.regs.y[i] = s.regs.y[π i]) →
    ∃ t t', exec .fit s = .next t ∧ exec .fit s' = .next t' ∧
      (∀ r ∈ writesOf .fit, t'.regs.get r = t.regs.get r) ∧
      t'.flag .ood = t.flag .ood ∧ t'.flag .degen = t.flag .degen

/-- A degenerate fit goes on (43_solver.md section 3): when FIT computes a zero determinant it
reports DEGEN and OOD, and takes the reciprocal 8.0. -/
def Obligations.DegenerateFitGoesOn : Prop :=
  ∀ s : State, (∀ i : Fin 8, s.written.x[i] = true) → (∀ i : Fin 8, s.written.y[i] = true) →
    (acc s.regs.x).det = 0 →
    ∃ t, exec .fit s = .next t ∧ t.flag .degen = true ∧ t.flag .ood = true ∧
      t.regs.det = 0 ∧ t.regs.rcp = 0x00080000#32 ∧ t.regs.ksh = 0

/-! ## Every command -/

/-- Every command completes from every state (20_memory.md section 3, 10_state.md sections 2, 4 and
7), its operands written or not: BUSY 0, DONE 1, PEND empty; the registers of its "writes" cell are
written, every other register is as before; a flag it does not compute and every reserved bit reads
0. Two clauses are the model's choice: that a register written from an unwritten operand counts as
written (log entry 3), and that `pins` is as before (log entry 7). -/
def Obligations.EveryCommandCompletes : Prop :=
  ∀ (i : Instr) (s : State), ∃ t, exec i s = .next t ∧
    t.busy = false ∧ t.doneFlag = true ∧ t.pend = none ∧
    (∀ r ∈ writesOf i, t.written.get r = true) ∧
    (∀ r, r ∉ writesOf i → t.regs.get r = s.regs.get r ∧ t.written.get r = s.written.get r) ∧
    (∀ f, f ∉ flagsOf i → t.flag f = false) ∧
    t.status &&& 0xFFFFF8C0#32 = 0 ∧ t.pins = s.pins

/-- A command is a function of the registers of its "reads" cell and of its immediate (00_scope.md
section 4): two states that agree on them, all written, give the same results and the same STATUS,
whatever else they hold. -/
def Obligations.CommandsDependOnlyOnTheirReads : Prop :=
  ∀ (i : Instr) (s s' : State), s.ready i = true → s'.ready i = true →
    (∀ r ∈ readsOf i, s.regs.get r = s'.regs.get r) →
    ∃ t t', exec i s = .next t ∧ exec i s' = .next t' ∧
      (∀ r ∈ writesOf i, t.regs.get r = t'.regs.get r) ∧ t.status = t'.status

/-- Which flags can stand together (R193): ILL alone; DEGEN in FIT implies OOD and OOD does not
imply DEGEN; a DET at or above 0x40000000 sets both OOD and OVF in RECIP, one at or below 0 sets OOD
with or without OVF; after CMP exactly one of LT, EQ, GT and no error flag. -/
def Obligations.FlagCombinations : Prop :=
  (∀ s : State, (completeIllegal s).status = 0x00000006#32) ∧
  (∀ s t : State, s.ready .fit = true → exec .fit s = .next t → t.flag .degen = true →
    t.flag .ood = true) ∧
  (∃ s t : State, s.ready .fit = true ∧ exec .fit s = .next t ∧ t.flag .ood = true ∧
    t.flag .degen = false) ∧
  (∀ s t : State, s.ready .recip = true → exec .recip s = .next t →
    (sint s.regs.det ≥ 0x40000000 → t.flag .ood = true ∧ t.flag .ovf = true) ∧
    (sint s.regs.det ≤ 0 → t.flag .ood = true) ∧ t.flag .degen = false) ∧
  (∃ s t : State, s.ready .recip = true ∧ sint s.regs.det ≤ 0 ∧ exec .recip s = .next t ∧
    t.flag .ovf = true) ∧
  (∃ s t : State, s.ready .recip = true ∧ sint s.regs.det ≤ 0 ∧ exec .recip s = .next t ∧
    t.flag .ovf = false) ∧
  ∀ s t : State, s.ready .cmp = true → exec .cmp s = .next t →
    (t.status = 0x00000102#32 ∨ t.status = 0x00000202#32 ∨ t.status = 0x00000402#32)

/-- An illegal word (R66): exactly one with a bit of 31:13 set, with an unassigned opcode, or of
format N with imm5 not 0. It is accepted like any other; it completes with ILL alone and changes no
data register; the next command is accepted. What it says of the model's own fields is the model's
choice (log entries 4, 6, 7, 8, 11). -/
def Obligations.IllegalWordsCompleteWithIll : Prop :=
  (∀ w : Word, (∃ e, decode w = .error e) ↔
    w.toNat ≥ 2 ^ 13 ∨
    w.toNat % 256 ∉ [0x00, 0x01, 0x02, 0x03, 0x04, 0x05, 0x06, 0x10, 0x11, 0x12, 0x13, 0x14] ∨
    (w.toNat % 256 ∉ [0x04, 0x06] ∧ w.toNat / 256 % 32 ≠ 0)) ∧
  ∀ (w : Word) (e : DecodeError) (s : State), decode w = .error e →
    (s.busy = false →
      (regWrite s 0x28#6 w).pend = some w ∧ (regWrite s 0x28#6 w).busy = true) ∧
    ∃ t, completeWord w s = .next t ∧ CompletedWith s t [] (fun _ => 0) 0x00000006#32 ∧
      ∀ w' : Word, (regWrite t 0x28#6 w').pend = some w'

/-! ## The host port -/

/-- `RegRead` (20_memory.md section 2): STATUS and NCNT at any time, CMD and reserved indices 0, a
written data register while idle. What a busy core or an unwritten register answers is free (log
entries 2 and 4). -/
def Obligations.RegReadFollowsTheMap : Prop :=
  ∀ s : State,
    regRead s 0x29#6 = s.status ∧ regRead s 0x19#6 = 0x00080000#32 ∧ regRead s 0x28#6 = 0 ∧
    regRead s 0x1F#6 = 0 ∧ (∀ idx : BitVec 6, 0x2A ≤ idx.toNat → regRead s idx = 0) ∧
    (∀ r, s.busy = false → s.written.get r = true → regRead s (regIndex r) = s.regs.get r)

/-- `RegWrite` (R42): nothing while busy; at CMD the accept; nothing at STATUS, NCNT and the
reserved indices; otherwise the data register of that index, all 32 bits, and nothing else. -/
def Obligations.RegWriteFollowsTheMap : Prop :=
  ∀ (s : State) (idx : BitVec 6) (v : Word),
    (s.busy = true → regWrite s idx v = s) ∧
    (s.busy = false → idx = 0x28#6 → ∃ n, regWrite s idx v = accept s v n) ∧
    (s.busy = false → idx = 0x29#6 ∨ idx = 0x19#6 ∨ idx = 0x1F#6 ∨ 0x2A ≤ idx.toNat →
      regWrite s idx v = s) ∧
    (s.busy = false → ¬ (idx = 0x28#6 ∨ idx = 0x29#6 ∨ idx = 0x19#6 ∨ idx = 0x1F#6 ∨
        0x2A ≤ idx.toNat) →
      ∃ r, regIndex r = idx ∧ (regWrite s idx v).regs.get r = v ∧
        (regWrite s idx v).written.get r = true ∧
        (∀ r', r' ≠ r → (regWrite s idx v).regs.get r' = s.regs.get r' ∧
          (regWrite s idx v).written.get r' = s.written.get r') ∧
        regWrite s idx v =
          { s with regs := (regWrite s idx v).regs, written := (regWrite s idx v).written })

/-- Reserved indices hold no state (R55): they read 0 and a write has no effect. -/
def Obligations.ReservedIndicesHoldNothing : Prop :=
  ∀ (s : State) (idx : BitVec 6) (v : Word), idx = 0x1F#6 ∨ 0x2A ≤ idx.toNat →
    regRead s idx = 0 ∧ regWrite s idx v = s

/-- NCNT reads 8.0 in every state, busy or not, just after reset, and whatever is written to it
(R17). -/
def Obligations.NcntIsHardwired : Prop :=
  (∀ s : State, regRead s 0x19#6 = 0x00080000#32) ∧
  regRead State.reset 0x19#6 = 0x00080000#32 ∧
  ∀ (s : State) (v : Word), regWrite s 0x19#6 v = s

/-- Each data register has an index of its own, and every index that names a data register is that
register's (10_state.md section 1). -/
def Obligations.RegisterMapIsOneToOne : Prop :=
  (∀ r : Reg, portTarget (regIndex r) = .data r) ∧
  (∀ (idx : BitVec 6) (r : Reg), portTarget idx = .data r → regIndex r = idx) ∧
  (∀ idx : BitVec 6, (∃ r, portTarget idx = .data r) ↔
    idx.toNat < 0x28 ∧ idx ≠ 0x19#6 ∧ idx ≠ 0x1F#6)

/-- The accept (R44): a write to CMD while BUSY is 0 fills PEND with the word, legal or not, sets
BUSY, clears DONE and every flag, and changes no data register. -/
def Obligations.WriteToCmdIsAccepted : Prop :=
  ∀ (s : State) (w : Word), s.busy = false →
    (regWrite s 0x28#6 w).pend = some w ∧ (regWrite s 0x28#6 w).status = 0x00000001#32 ∧
    (regWrite s 0x28#6 w).regs = s.regs ∧ (regWrite s 0x28#6 w).written = s.written ∧
    (∀ f, (regWrite s 0x28#6 w).flag f = false) ∧ (regWrite s 0x28#6 w).busy = true ∧
    (regWrite s 0x28#6 w).doneFlag = false

/-! ## The clocked machine -/

/-- A step at which the latency has passed runs the decoded command (20_memory.md section 3). What
the step adds around exec is the model's choice: `wait` 0 says that the latency has passed (log
entry 6), the cycle's read data is latched (log entry 8), its entry of `pins` is used up (log entry
7), a draw is taken (log entry 4), and a host write in this completing cycle is lost (log entry 12).
-/
def Obligations.StepRunsTheDecodedCommand : Prop :=
  ∀ (s : State) (w : Word) (i : Instr), s.pend = some w → decode w = .ok i → s.wait = 0 →
    s.busy = true → (currentPin s).rst = false →
    i.wellFormed = true ∧
    step s = exec i { s with
      pins := s.pins.tail
      rdata := portRead (dropPin s) (currentPin s)
      draws := s.draws + 1 }

/-- Every step answers a next state (60_exceptions.md section 1): the core cannot hang, trap or
refuse, from any state and for any word pending. -/
def Obligations.EveryStepAnswersNext : Prop :=
  ∀ s : State, ∃ t, step s = .next t

/-- STATUS and PEND stay consistent at every step from every consistent state (10_state.md sections
3, 4 and 6): BUSY exactly when PEND is not empty, nothing but BUSY while busy, reserved bits 0, ILL
alone. That nothing is awaited while idle is the model's own clause (log entry 6). -/
def Obligations.ConsistencyIsKept : Prop :=
  ∀ s t : State, s.Consistent → step s = .next t → t.Consistent

/-- The state after reset is consistent. That nothing is awaited in it (`wait` is 0) is the model's
own clause (log entry 6). -/
def Obligations.ResetStateIsConsistent : Prop := State.reset.Consistent

/-- The state after reset (10_state.md section 8): STATUS 0, nothing pending, the done pin 0, NCNT
8.0, CMD and the reserved indices read 0, and no data register written. What those registers hold is
the model's choice (log entry 1) and is not stated. -/
def Obligations.ResetStateAsTheSpecSays : Prop :=
  State.reset.status = 0 ∧ State.reset.pend = none ∧ State.reset.donePin = false ∧
  regRead State.reset 0x19#6 = 0x00080000#32 ∧ regRead State.reset 0x28#6 = 0 ∧
  regRead State.reset 0x1F#6 = 0 ∧
  (∀ idx : BitVec 6, 0x2A ≤ idx.toNat → regRead State.reset idx = 0) ∧
  (∀ f, State.reset.flag f = false) ∧
  ∀ r, State.reset.written.get r = false

/-- A rising edge with rst = 1 (70_reset_and_hazards.md section 1), from any state, busy or not, and
whatever the host writes in that cycle: PEND empty, STATUS 0, done 0, no data register written. Two
clauses are the model's choice: the record of error flags is kept (log entries 10 and 11), and the
cycle's entry of `pins` is used up (log entry 7). -/
def Obligations.ResetEdgeAbandonsTheCommand : Prop :=
  ∀ s : State, (currentPin s).rst = true →
    ∃ t, step s = .next t ∧ t.pend = none ∧ t.status = 0 ∧ t.donePin = false ∧
      (∀ r, t.written.get r = false) ∧ t.errors = s.errors ∧ t.pins = s.pins.tail

/-- A cycle in which the host only reads or does nothing changes no register of an idle core
(20_memory.md sections 4 and 5), and the read data is RegRead of the state before the edge, at every
index (20_memory.md section 2). Three points are the model's choice: `rdata` keeps the read data
(log entry 8), the record of error flags is kept (log entry 11), and so is `wait` (log entry 6). -/
def Obligations.ReadsChangeNothing : Prop :=
  ∀ s : State, s.pend = none → (currentPin s).rst = false → (currentPin s).we = false →
    ∃ t, step s = .next t ∧ t.regs = s.regs ∧ t.written = s.written ∧ t.status = s.status ∧
      t.pend = none ∧ t.errors = s.errors ∧ t.wait = s.wait ∧
      ((currentPin s).re = true → t.rdata = regRead s (currentPin s).addr) ∧
      ((currentPin s).re = true → ∀ r, (currentPin s).addr = regIndex r → s.busy = false →
        s.written.get r = true → t.rdata = s.regs.get r) ∧
      ((currentPin s).re = true → (currentPin s).addr = 0x29#6 → t.rdata = s.status)

/-- A cycle with we = 1 and rst = 0 on an idle core performs RegWrite(addr, wdata) at its edge
(20_memory.md sections 2 and 6): a data register takes wdata and nothing else changes; CMD is the
accept; STATUS, NCNT and the reserved indices take no effect. With re = 1 in the same cycle the read
returns the value before the write (`rdata` keeps it: log entry 8). -/
def Obligations.HostWriteIsPerformedAtTheEdge : Prop :=
  ∀ s : State, s.Consistent → s.pend = none → (currentPin s).rst = false →
    (currentPin s).we = true →
    ∃ t, step s = .next t ∧
      t.regs = (regWrite s (currentPin s).addr (currentPin s).wdata).regs ∧
      t.written = (regWrite s (currentPin s).addr (currentPin s).wdata).written ∧
      t.status = (regWrite s (currentPin s).addr (currentPin s).wdata).status ∧
      t.pend = (regWrite s (currentPin s).addr (currentPin s).wdata).pend ∧
      (∀ r, (currentPin s).addr = regIndex r →
        t.regs.get r = (currentPin s).wdata ∧ t.written.get r = true ∧
        (∀ r', r' ≠ r → t.regs.get r' = s.regs.get r' ∧ t.written.get r' = s.written.get r') ∧
        t.status = s.status ∧ t.pend = none) ∧
      ((currentPin s).addr = 0x28#6 →
        t.pend = some (currentPin s).wdata ∧ t.status = 0x00000001#32 ∧ t.regs = s.regs ∧
        t.written = s.written) ∧
      ((currentPin s).addr = 0x29#6 ∨ (currentPin s).addr = 0x19#6 ∨
          (currentPin s).addr = 0x1F#6 ∨ 0x2A ≤ (currentPin s).addr.toNat →
        t.regs = s.regs ∧ t.written = s.written ∧ t.status = s.status ∧ t.pend = none) ∧
      ((currentPin s).re = true → t.rdata = regRead s (currentPin s).addr)

/-- The read data of a cycle with re = 1 is RegRead of the state before its edge (20_memory.md
section 2), in every state, busy or idle, whatever is written and whatever completes at that edge.
That `rdata` keeps it is log entry 8; that a read with rst = 1 answers too is log entry 12. -/
def Obligations.ReadDataIsThatBeforeTheEdge : Prop :=
  ∀ s : State, (currentPin s).re = true →
    ∃ t, step s = .next t ∧ t.rdata = regRead s (currentPin s).addr

/-- While busy every host write is ignored (20_memory.md section 3): without a reset, one step from
a busy state leaves the same registers, STATUS, PEND and latency whatever the host writes. The
premises and clauses on `draws`, `wait` and `errors` are about the model's own fields (log entries
4, 6 and 11). That a write in the completing cycle itself (`wait` 0) is lost is the model's reading
(log entry 12). -/
def Obligations.BusyIgnoresHostWrites : Prop :=
  ∀ (s s' : State), s.busy = true →
    s'.regs = s.regs → s'.written = s.written → s'.status = s.status → s'.pend = s.pend →
    s'.wait = s.wait → s'.draws = s.draws → s'.errors = s.errors →
    (currentPin s).rst = false → (currentPin s').rst = false →
    ∃ t t', step s = .next t ∧ step s' = .next t' ∧ t.regs = t'.regs ∧
      t.written = t'.written ∧ t.status = t'.status ∧ t.pend = t'.pend ∧ t.wait = t'.wait ∧
      t.errors = t'.errors

/-- An accepted command completes, and computes from the registers as they stood at its accept
(20_memory.md sections 3 and 6): from any consistent state with `w` pending, after as many steps as
its latency has left (`wait`, log entry 6; the host's cycles are `pins`, log entry 7) and one more,
whatever the host drives short of a reset, the core is idle and DONE; the registers and STATUS are
those of the command's completion in the state at hand; and in every cycle before that, the
registers are unchanged and `w` is still pending. That a write in the completing cycle is lost too,
so that PEND is empty and the registers are the command's at the end, is the model's reading (log
entry 12). -/
def Obligations.AcceptedCommandCompletes : Prop :=
  ∀ (s : State) (w : Word), s.Consistent → s.pend = some w →
    (∀ p ∈ s.pins.take (s.wait + 1), p.rst = false) →
    (∀ n ≤ s.wait, ∃ m, core.run n s = .next m ∧ State.pend m = some w ∧
      State.regs m = s.regs ∧ State.written m = s.written ∧ State.status m = s.status) ∧
    ∃ t, core.run (s.wait + 1) s = .next t ∧ State.pend t = none ∧ State.busy t = false ∧
      State.doneFlag t = true ∧
      (∀ i, decode w = .ok i → s.ready i = true → ∃ u, exec i s = .next u ∧
        State.regs t = u.regs ∧ State.written t = u.written ∧ State.status t = u.status) ∧
      (∀ e, decode w = .error e → State.regs t = s.regs ∧ State.status t = 0x00000006#32)

/-- X and Y change only by a host write to them (10_state.md section 2): without a reset and without
a write that reaches X[i], a step keeps X[i]; the same for Y[i]. What the host drives is `pins` (log
entry 7). That a write to X[i] or Y[i] in the cycle in which a command completes (BUSY still 1,
`wait` 0) does not reach it is the model's reading (log entry 12). -/
def Obligations.SamplesChangeOnlyByHostWrites : Prop :=
  ∀ (s t : State) (i : Fin 8) (r : Reg), r = .x i ∨ r = .y i → step s = .next t →
    (currentPin s).rst = false →
    ¬ ((currentPin s).we = true ∧ s.busy = false ∧ (currentPin s).addr = regIndex r) →
    t.regs.get r = s.regs.get r ∧ t.written.get r = s.written.get r

/-- The done pin (60_exceptions.md section 3): it rises at every completion and falls at every
accept and at every reset, and nothing else moves it. That a completion falls on the edge at which
`wait` is 0 is log entry 6; that PEND is empty and done 1 after that edge even when the host writes
CMD in that cycle is the model's reading (log entry 12). -/
def Obligations.DonePinRisesAndFalls : Prop :=
  ∀ s t : State, s.Consistent → step s = .next t →
    (s.pend.isSome = true → s.wait = 0 → (currentPin s).rst = false →
      s.donePin = false ∧ t.donePin = true ∧ t.pend = none) ∧
    (s.pend = none → (currentPin s).we = true → (currentPin s).addr = 0x28#6 →
      (currentPin s).rst = false → t.donePin = false ∧ t.pend = some (currentPin s).wdata) ∧
    ((currentPin s).rst = true → t.donePin = false) ∧
    (s.donePin = false → t.donePin = true →
      s.pend.isSome = true ∧ s.wait = 0 ∧ t.pend = none ∧ (currentPin s).rst = false) ∧
    (s.donePin = true → t.donePin = false →
      (currentPin s).rst = true ∨
      ((currentPin s).we = true ∧ (currentPin s).addr = 0x28#6 ∧
        t.pend = some (currentPin s).wdata))

/-- The model's record of error flags (10_state.md section 4) is never cleared, and after a
completion, of a legal word or of an illegal one, it holds that completion's error flags. The record
is the model's own (log entry 11). -/
def Obligations.ErrorRecordIsSticky : Prop :=
  (∀ s t : State, step s = .next t → s.errors &&& t.errors = s.errors) ∧
  (∀ (i : Instr) (s t : State), exec i s = .next t →
    t.errors &&& t.status.extractLsb' 2 4 = t.status.extractLsb' 2 4) ∧
  ∀ (w : Word) (s t : State), completeWord w s = .next t →
    t.errors &&& t.status.extractLsb' 2 4 = t.status.extractLsb' 2 4
end

