-- ==== Sys2Proof/Laws/State.lean ====
section
/-! SUPPORT. What each update of the state does to each field. -/

namespace Sys2Proof.Machine

/-! Reading a register of a file -/

@[simp] theorem RegFile.get_const {α : Type} (a : α) (r : Reg) : (RegFile.const a).get r = a := by
  cases r with
  | x i => fin_cases i <;> rfl
  | y i => fin_cases i <;> rfl
  | p i => fin_cases i <;> rfl
  | _ => rfl

theorem RegFile.get_set {α : Type} (f : RegFile α) (r r' : Reg) (v : α) :
    (f.set r v).get r' = if r = r' then v else f.get r' := by
  cases r <;> cases r' <;>
    simp [RegFile.get, RegFile.set, Vector.getElem_set, Fin.ext_iff]

@[simp] theorem RegFile.get_set_self {α : Type} (f : RegFile α) (r : Reg) (v : α) :
    (f.set r v).get r = v := by simp [RegFile.get_set]

@[simp] theorem RegFile.get_set_ne {α : Type} (f : RegFile α) {r r' : Reg} (h : r ≠ r') (v : α) :
    (f.set r v).get r' = f.get r' := by simp [RegFile.get_set, h]

/-- Two files with the same registers are the same. -/
theorem RegFile.ext_get {α : Type} {f g : RegFile α} (h : ∀ r, f.get r = g.get r) : f = g := by
  have hx : f.x = g.x := Vector.ext fun i hi => h (.x ⟨i, hi⟩)
  have hy : f.y = g.y := Vector.ext fun i hi => h (.y ⟨i, hi⟩)
  have hp : f.p = g.p := Vector.ext fun i hi => h (.p ⟨i, hi⟩)
  have := h .opa; have := h .opb; have := h .res; have := h .det; have := h .ksh
  have := h .seed; have := h .rcp; have := h .sumx; have := h .sumxx; have := h .cc
  have := h .cd; have := h .ce; have := h .th0; have := h .th1
  cases f; cases g
  simp_all [RegFile.get]

/-! A named register of a file is what `get` reads -/

theorem RegFile.get_x {α : Type} (f : RegFile α) (i : Fin 8) : f.get (.x i) = f.x[i] := rfl
theorem RegFile.get_y {α : Type} (f : RegFile α) (i : Fin 8) : f.get (.y i) = f.y[i] := rfl
theorem RegFile.get_p {α : Type} (f : RegFile α) (i : Fin 8) : f.get (.p i) = f.p[i] := rfl

/-- Element `i` of an array built lane by lane (R133). -/
theorem perLane_get {α : Type} (g : Fin 8 → α) (i : Fin 8) : (perLane g)[i] = g i := by
  fin_cases i <;> rfl

/-- `perLane_get` in the form simp brings an index into. -/
@[simp] theorem perLane_getElem {α : Type} (g : Fin 8 → α) (i : Nat) (h : i < 8) :
    (perLane g)[i] = g ⟨i, h⟩ := perLane_get g ⟨i, h⟩

@[simp] theorem anyLane_eq_true (g : Fin 8 → Bool) : anyLane g = true ↔ ∃ i, g i = true := by
  simp only [anyLane, lanes, List.any_eq_true]
  constructor
  · rintro ⟨i, -, h⟩; exact ⟨i, h⟩
  · rintro ⟨i, h⟩; exact ⟨i, by fin_cases i <;> simp, h⟩

theorem mem_lanes (i : Fin 8) : i ∈ lanes := by fin_cases i <;> decide

/-! One register write -/

@[simp] theorem writeReg_regs (s : State) (r : Reg) (v : Word) :
    (s.writeReg r v).regs = s.regs.set r v := rfl
@[simp] theorem writeReg_written (s : State) (r : Reg) (v : Word) :
    (s.writeReg r v).written = s.written.set r true := rfl
@[simp] theorem writeReg_status (s : State) (r : Reg) (v : Word) :
    (s.writeReg r v).status = s.status := rfl
@[simp] theorem writeReg_pend (s : State) (r : Reg) (v : Word) :
    (s.writeReg r v).pend = s.pend := rfl
@[simp] theorem writeReg_wait (s : State) (r : Reg) (v : Word) :
    (s.writeReg r v).wait = s.wait := rfl
@[simp] theorem writeReg_pins (s : State) (r : Reg) (v : Word) :
    (s.writeReg r v).pins = s.pins := rfl
@[simp] theorem writeReg_rdata (s : State) (r : Reg) (v : Word) :
    (s.writeReg r v).rdata = s.rdata := rfl
@[simp] theorem writeReg_draws (s : State) (r : Reg) (v : Word) :
    (s.writeReg r v).draws = s.draws := rfl
@[simp] theorem writeReg_errors (s : State) (r : Reg) (v : Word) :
    (s.writeReg r v).errors = s.errors := rfl

/-! The accept -/

@[simp] theorem accept_regs (s : State) (w : Word) (n : Nat) : (accept s w n).regs = s.regs := rfl
@[simp] theorem accept_status (s : State) (w : Word) (n : Nat) :
    (accept s w n).status = statusAccepted := rfl
@[simp] theorem accept_pend (s : State) (w : Word) (n : Nat) : (accept s w n).pend = some w := rfl
@[simp] theorem accept_written (s : State) (w : Word) (n : Nat) :
    (accept s w n).written = s.written := rfl
@[simp] theorem accept_wait (s : State) (w : Word) (n : Nat) : (accept s w n).wait = n := rfl
@[simp] theorem accept_pins (s : State) (w : Word) (n : Nat) : (accept s w n).pins = s.pins := rfl
@[simp] theorem accept_rdata (s : State) (w : Word) (n : Nat) : (accept s w n).rdata = s.rdata := rfl
@[simp] theorem accept_draws (s : State) (w : Word) (n : Nat) : (accept s w n).draws = s.draws := rfl
@[simp] theorem accept_errors (s : State) (w : Word) (n : Nat) :
    (accept s w n).errors = s.errors := rfl

/-! The reset edge -/

@[simp] theorem resetEdge_regs (s : State) : (resetEdge s).regs = freeRegs s.draws := rfl
@[simp] theorem resetEdge_status (s : State) : (resetEdge s).status = 0 := rfl
@[simp] theorem resetEdge_pend (s : State) : (resetEdge s).pend = none := rfl
@[simp] theorem resetEdge_written (s : State) : (resetEdge s).written = RegFile.const false := rfl
@[simp] theorem resetEdge_wait (s : State) : (resetEdge s).wait = 0 := rfl
@[simp] theorem resetEdge_pins (s : State) : (resetEdge s).pins = s.pins := rfl
@[simp] theorem resetEdge_rdata (s : State) : (resetEdge s).rdata = s.rdata := rfl
@[simp] theorem resetEdge_draws (s : State) : (resetEdge s).draws = s.draws := rfl
@[simp] theorem resetEdge_errors (s : State) : (resetEdge s).errors = s.errors := rfl

/-! The read data of the cycle, and the use of its entry in `pins` -/

@[simp] theorem observe_regs (p : PortIn) (s : State) : (observe p s).regs = s.regs := rfl
@[simp] theorem observe_status (p : PortIn) (s : State) : (observe p s).status = s.status := rfl
@[simp] theorem observe_pend (p : PortIn) (s : State) : (observe p s).pend = s.pend := rfl
@[simp] theorem observe_written (p : PortIn) (s : State) : (observe p s).written = s.written := rfl
@[simp] theorem observe_wait (p : PortIn) (s : State) : (observe p s).wait = s.wait := rfl
@[simp] theorem observe_pins (p : PortIn) (s : State) : (observe p s).pins = s.pins := rfl
@[simp] theorem observe_rdata (p : PortIn) (s : State) : (observe p s).rdata = portRead s p := rfl
@[simp] theorem observe_draws (p : PortIn) (s : State) : (observe p s).draws = s.draws + 1 := rfl
@[simp] theorem observe_errors (p : PortIn) (s : State) : (observe p s).errors = s.errors := rfl

@[simp] theorem dropPin_regs (s : State) : (dropPin s).regs = s.regs := rfl
@[simp] theorem dropPin_status (s : State) : (dropPin s).status = s.status := rfl
@[simp] theorem dropPin_pend (s : State) : (dropPin s).pend = s.pend := rfl
@[simp] theorem dropPin_written (s : State) : (dropPin s).written = s.written := rfl
@[simp] theorem dropPin_wait (s : State) : (dropPin s).wait = s.wait := rfl
@[simp] theorem dropPin_pins (s : State) : (dropPin s).pins = s.pins.tail := rfl
@[simp] theorem dropPin_rdata (s : State) : (dropPin s).rdata = s.rdata := rfl
@[simp] theorem dropPin_draws (s : State) : (dropPin s).draws = s.draws := rfl
@[simp] theorem dropPin_errors (s : State) : (dropPin s).errors = s.errors := rfl

end Sys2Proof.Machine
end

