-- ==== Sys2Proof/Laws/Ops.lean ====
section
/-! SUPPORT. For each shared operation, once, everything it can do. -/

namespace Sys2Proof.Machine

/-! Writing a list of registers -/

/-- A list of writes changes the register file and the written bits alone. -/
theorem writeRegs_fields (ws : List (Reg × Word)) (s : State) :
    (s.writeRegs ws).status = s.status ∧ (s.writeRegs ws).pend = s.pend ∧
    (s.writeRegs ws).wait = s.wait ∧ (s.writeRegs ws).pins = s.pins ∧
    (s.writeRegs ws).rdata = s.rdata ∧ (s.writeRegs ws).draws = s.draws ∧
    (s.writeRegs ws).errors = s.errors := by
  induction ws generalizing s with
  | nil => simp [State.writeRegs]
  | cons w ws ih => simpa [State.writeRegs] using ih (s.writeReg w.1 w.2)

/-- A register no write names is as before (the frame rule, R18). -/
theorem writeRegs_frame (ws : List (Reg × Word)) (s : State) (r : Reg)
    (h : r ∉ ws.map Prod.fst) :
    (s.writeRegs ws).regs.get r = s.regs.get r ∧
    (s.writeRegs ws).written.get r = s.written.get r := by
  induction ws generalizing s with
  | nil => simp [State.writeRegs]
  | cons w ws ih =>
    simp only [List.map_cons, List.mem_cons, not_or] at h
    obtain ⟨h1, h2⟩ := ih (s.writeReg w.1 w.2) h.2
    simp [State.writeRegs, h1, h2, Ne.symm h.1]

/-- Where no register is named twice, each holds what its write gives and is written. -/
theorem writeRegs_result (ws : List (Reg × Word)) (s : State) (hn : (ws.map Prod.fst).Nodup)
    (r : Reg) (v : Word) (h : (r, v) ∈ ws) :
    (s.writeRegs ws).regs.get r = v ∧ (s.writeRegs ws).written.get r = true := by
  induction ws generalizing s with
  | nil => cases h
  | cons w ws ih =>
    simp only [List.map_cons, List.nodup_cons] at hn
    rcases List.mem_cons.mp h with rfl | h
    · have := writeRegs_frame ws (s.writeReg r v) r hn.1
      simpa [State.writeRegs] using this
    · exact ih (s.writeReg w.1 w.2) hn.2 h

/-! The completion -/

@[simp] theorem complete_status (s : State) (ws : List (Reg × Word)) (fs : List (Flag × Bool)) :
    (s.complete ws fs).status = statusCompleted fs := rfl
@[simp] theorem complete_pend (s : State) (ws : List (Reg × Word)) (fs : List (Flag × Bool)) :
    (s.complete ws fs).pend = none := rfl
@[simp] theorem complete_wait (s : State) (ws : List (Reg × Word)) (fs : List (Flag × Bool)) :
    (s.complete ws fs).wait = 0 := rfl
@[simp] theorem complete_errors (s : State) (ws : List (Reg × Word)) (fs : List (Flag × Bool)) :
    (s.complete ws fs).errors = s.errors ||| errorBits (statusCompleted fs) := rfl
@[simp] theorem complete_regs (s : State) (ws : List (Reg × Word)) (fs : List (Flag × Bool)) :
    (s.complete ws fs).regs = (s.writeRegs ws).regs := rfl
@[simp] theorem complete_written (s : State) (ws : List (Reg × Word)) (fs : List (Flag × Bool)) :
    (s.complete ws fs).written = (s.writeRegs ws).written := rfl
@[simp] theorem complete_pins (s : State) (ws : List (Reg × Word)) (fs : List (Flag × Bool)) :
    (s.complete ws fs).pins = s.pins := (writeRegs_fields ws s).2.2.2.1
@[simp] theorem complete_rdata (s : State) (ws : List (Reg × Word)) (fs : List (Flag × Bool)) :
    (s.complete ws fs).rdata = s.rdata := (writeRegs_fields ws s).2.2.2.2.1
@[simp] theorem complete_draws (s : State) (ws : List (Reg × Word)) (fs : List (Flag × Bool)) :
    (s.complete ws fs).draws = s.draws := (writeRegs_fields ws s).2.2.2.2.2.1

/-- A completion meets `CompletedWith` (R18, R45) for any reading `value` of its writes. -/
theorem complete_completedWith (s : State) (ws : List (Reg × Word)) (fs : List (Flag × Bool))
    (hn : (ws.map Prod.fst).Nodup) (value : Reg → Word) (hv : ∀ w ∈ ws, value w.1 = w.2) :
    CompletedWith s (s.complete ws fs) (ws.map Prod.fst) value (statusCompleted fs) where
  results := by
    intro r hr
    obtain ⟨w, hw, rfl⟩ := List.mem_map.mp hr
    obtain ⟨h1, h2⟩ := writeRegs_result ws s hn w.1 w.2 hw
    exact ⟨by rw [hv w hw]; exact h1, h2⟩
  frame := fun r hr => writeRegs_frame ws s r hr
  statusWord := rfl
  pend := rfl
  wait := rfl
  pins := complete_pins s ws fs
  rdata := complete_rdata s ws fs
  draws := complete_draws s ws fs
  errors := rfl

/-- Everything a command's completion can do: with its operands written, the results of its rule
(R45); otherwise free values for the same registers and the same flags (R26). -/
theorem finish_cases {e : Effect} {s t : State} (h : finish e s = .next t) :
    (s.specified e.reads = true ∧ t = s.complete e.writes e.flags) ∨
    (s.specified e.reads = false ∧ t = s.complete (s.freeWrites e.writes) (s.freeFlags e.flags)) := by
  unfold finish at h
  injection h with h
  by_cases hs : s.specified e.reads = true
  · left; exact ⟨hs, by rw [← h, if_pos hs]⟩
  · right; exact ⟨by simpa using hs, by rw [← h, if_neg hs]⟩

/-- A command whose operands have been written completes with the results of its rule (R45). -/
theorem finish_specified {e : Effect} {s : State} (h : s.specified e.reads = true) :
    finish e s = .next (s.complete e.writes e.flags) := by
  rw [finish, if_pos h]

/-- A command that reads an unwritten register completes with free values (R26). -/
theorem finish_unspecified {e : Effect} {s : State} (h : s.specified e.reads = false) :
    finish e s = .next (s.complete (s.freeWrites e.writes) (s.freeFlags e.flags)) := by
  rw [finish, if_neg (by simp [h])]

@[simp] theorem freeWrites_regs (s : State) (ws : List (Reg × Word)) :
    (s.freeWrites ws).map Prod.fst = ws.map Prod.fst := by
  simp [State.freeWrites, Function.comp_def]

@[simp] theorem freeFlags_names (s : State) (fs : List (Flag × Bool)) :
    (s.freeFlags fs).map Prod.fst = fs.map Prod.fst := by
  simp [State.freeFlags, Function.comp_def]

theorem specified_iff (s : State) (rs : List Reg) :
    s.specified rs = true ↔ ∀ r ∈ rs, s.written.get r = true := by
  simp [State.specified]

theorem specified_append (s : State) (rs rs' : List Reg) :
    s.specified (rs ++ rs') = (s.specified rs && s.specified rs') := by simp [State.specified]

theorem specified_xRegs (s : State) :
    s.specified xRegs = true ↔ ∀ i : Fin 8, s.written.x[i] = true := by
  simp only [specified_iff, xRegs, List.mem_map]
  exact ⟨fun h i => h (.x i) ⟨i, mem_lanes i, rfl⟩, by rintro h r ⟨i, -, rfl⟩; exact h i⟩

theorem specified_yRegs (s : State) :
    s.specified yRegs = true ↔ ∀ i : Fin 8, s.written.y[i] = true := by
  simp only [specified_iff, yRegs, List.mem_map]
  exact ⟨fun h i => h (.y i) ⟨i, mem_lanes i, rfl⟩, by rintro h r ⟨i, -, rfl⟩; exact h i⟩

/-! The status word of a completion -/

/-- The status words of the flag lists the commands use (R18, R20). -/
theorem statusCompleted_ovf (o : Bool) : statusCompleted [(.ovf, o)] = doneOvf o := by
  cases o <;> decide

theorem statusCompleted_errors (a b c : Bool) :
    statusCompleted [(.ood, a), (.ovf, b)] = doneErrors a b false ∧
    statusCompleted [(.ovf, b), (.degen, c)] = doneErrors false b c ∧
    statusCompleted [(.ood, a), (.ovf, b), (.degen, c)] = doneErrors a b c := by
  revert a b c; decide

/-- Bit `j` of the flags is set by a flag of bit `j` that is listed with value 1 (R20, R21). -/
theorem flagsWord_bit (fs : List (Flag × Bool)) (j : Nat) :
    (flagsWord fs).getLsbD j = fs.any (fun f => f.2 && decide (f.1.bit = j)) := by
  induction fs with
  | nil => simp [flagsWord]
  | cons f fs ih =>
    obtain ⟨f, b⟩ := f
    have hm : f.mask.getLsbD j = decide (f.bit = j) := by
      have hf : f.bit < 32 := by cases f <;> decide
      rw [Flag.mask, BitVec.getLsbD_shiftLeft]
      by_cases h : f.bit = j
      · subst h; simp [hf]
      · simp only [h, decide_false, Bool.and_eq_false_iff]
        by_cases hlt : j < f.bit
        · exact .inl (by simp [hlt])
        · exact .inr (by simp; omega)
    simp only [flagsWord, BitVec.getLsbD_or, ih, List.any_cons]
    cases b <;> simp [hm]

/-- Bit `j` of `STATUS` after a completion: DONE, or one of the flags (R20, R45). -/
theorem statusCompleted_bit (fs : List (Flag × Bool)) (j : Nat) :
    (statusCompleted fs).getLsbD j =
      (decide (j = 1) || fs.any (fun f => f.2 && decide (f.1.bit = j))) := by
  have h2 : (0x00000002#32).getLsbD j = decide (j = 1) := by
    by_cases h : j < 32
    · interval_cases j <;> decide
    · rw [BitVec.getLsbD_of_ge _ _ (by omega)]; simp; omega
  rw [statusCompleted, BitVec.getLsbD_or, flagsWord_bit, h2]

/-! The port and the clock edge -/

/-- What a register write of the host can do (R42, R46): nothing; the accept; one data register. -/
theorem regWrite_cases (s : State) (idx : BitVec 6) (v : Word) :
    regWrite s idx v = s ∨
    (s.busy = false ∧ portTarget idx = .cmd ∧
      regWrite s idx v = accept s v (Config.freeLatency s.draws v s.regs.get)) ∨
    (s.busy = false ∧ ∃ r, portTarget idx = .data r ∧ regWrite s idx v = s.writeReg r v) := by
  unfold regWrite
  by_cases hb : s.busy = true
  · left; simp [hb]
  · have hb' : s.busy = false := by simpa using hb
    rw [if_neg hb]
    cases ht : portTarget idx with
    | data r => exact .inr (.inr ⟨hb', r, rfl, rfl⟩)
    | cmd => exact .inr (.inl ⟨hb', rfl, rfl⟩)
    | status => exact .inl rfl
    | ncnt => exact .inl rfl
    | reserved => exact .inl rfl

/-- While busy every host write is ignored (R46). -/
theorem regWrite_busy {s : State} (h : s.busy = true) (idx : BitVec 6) (v : Word) :
    regWrite s idx v = s := by simp [regWrite, h]

theorem hostWrite_busy {s : State} (h : s.busy = true) (p : PortIn) : hostWrite p s = s := by
  unfold hostWrite; split <;> simp [regWrite_busy h]

/-- An edge with `rst = 1` (R220). -/
theorem clockEdge_reset {p : PortIn} (h : p.rst = true) (s : State) :
    clockEdge p s = .next (resetEdge (observe p s)) := by simp [clockEdge, h]

/-- An edge without reset on an idle core: the host's write alone (R54). -/
theorem clockEdge_idle {p : PortIn} {s : State} (h : p.rst = false) (hp : s.pend = none) :
    clockEdge p s = .next (hostWrite p (observe p s)) := by
  simp [clockEdge, h, hp, coreMove]

/-- An edge without reset on a busy core: the latency passes, or the command completes; the host's
write is ignored (R45, R46). -/
theorem clockEdge_busy {p : PortIn} {s : State} {w : Word} (h : p.rst = false)
    (hp : s.pend = some w) (hb : s.busy = true) :
    clockEdge p s =
      if s.wait = 0 then completeWord w (observe p s)
      else .next { observe p s with wait := s.wait - 1 } := by
  have hb' : (observe p s).busy = true := hb
  simp [clockEdge, h, hp, coreMove, hostWrite_busy hb']

end Sys2Proof.Machine
end

