-- ==== Sys2Proof/Laws/Exec.lean ====
section
/-! SUPPORT. Once for every command: it is a completion that reads, writes and flags what its row
of 10_state.md R18 lists. -/

namespace Sys2Proof.Machine

/-- Every command is the completion of an effect whose columns are those of R18's table. -/
theorem exec_effect (i : Instr) (s : State) :
    ∃ e : Effect, exec i s = finish e s ∧ e.reads = readsOf i ∧
      e.writes.map Prod.fst = writesOf i ∧ e.flags.map Prod.fst = flagsOf i := by
  cases i <;> exact ⟨_, rfl, rfl, rfl, rfl⟩

/-- Two states with the same data registers complete the same effect (R4). -/
theorem exec_effect_congr (i : Instr) {s s' : State} (h : s'.regs = s.regs) :
    ∃ e : Effect, exec i s = finish e s ∧ exec i s' = finish e s' ∧ e.reads = readsOf i := by
  cases i <;>
    simp only [exec, execNop, execAdd, execSub, execMul, execShl, execCmp, execOnehot, execRecip,
      execAcc, execCoef, execPredict, execFit, h] <;>
    exact ⟨_, rfl, rfl, rfl⟩

/-- What a list of writes leaves in the data registers depends on the data registers alone. -/
theorem writeRegs_congr (ws : List (Reg × Word)) {s s' : State} (h : s'.regs = s.regs)
    (hw : s'.written = s.written) :
    (s'.writeRegs ws).regs = (s.writeRegs ws).regs ∧
    (s'.writeRegs ws).written = (s.writeRegs ws).written := by
  induction ws generalizing s s' with
  | nil => exact ⟨h, hw⟩
  | cons w ws ih => exact ih (by simp [State.writeReg, h]) (by simp [State.writeReg, hw])

theorem writesOf_nodup (i : Instr) : (writesOf i).Nodup := by
  cases i <;> simp only [writesOf] <;> decide

/-- A flag that a list of flags does not name reads 0 after the completion (R21). -/
theorem complete_flag_absent (s : State) (ws : List (Reg × Word)) (fs : List (Flag × Bool))
    (f : Flag) (h : f ∉ fs.map Prod.fst) : (s.complete ws fs).flag f = false := by
  have hinj : ∀ g : Flag, g.bit = f.bit → g = f := by
    intro g; cases g <;> cases f <;> simp [Flag.bit]
  have h1 : decide (f.bit = 1) = false := by cases f <;> rfl
  simp only [State.flag, complete_status, statusCompleted_bit, h1, Bool.false_or,
    List.any_eq_false, Bool.and_eq_true, decide_eq_true_eq, not_and]
  intro g hg _ hb
  exact h (by rw [← hinj g.1 hb]; exact List.mem_map_of_mem hg)

/-- BUSY reads 0 and DONE reads 1 after a completion (R45). -/
theorem complete_busy_done (s : State) (ws : List (Reg × Word)) (fs : List (Flag × Bool)) :
    (s.complete ws fs).busy = false ∧ (s.complete ws fs).doneFlag = true := by
  have h0 : ∀ f : Flag, decide (f.bit = 0) = false := by intro f; cases f <;> rfl
  constructor
  · simp only [State.busy, complete_status, statusCompleted_bit, h0, Bool.and_false]
    simp
  · simp only [State.doneFlag, complete_status, statusCompleted_bit, decide_true, Bool.true_or]

/-- A completion, of a command or of an illegal word, is `complete` for some writes and flags, and
there always is one (R45, R66). -/
theorem completeWord_complete (w : Word) (s : State) :
    ∃ ws fs, completeWord w s = .next (s.complete ws fs) := by
  unfold completeWord
  split
  · obtain ⟨e, he, -⟩ := exec_effect (by assumption) s
    rw [he, finish]
    split
    · exact ⟨_, _, rfl⟩
    · exact ⟨_, _, rfl⟩
  · exact ⟨_, _, rfl⟩

/-- The host's write leaves the model's own `pins`, `rdata`, `draws` and `errors` as they are. -/
theorem hostWrite_own (p : PortIn) (s : State) :
    (hostWrite p s).pins = s.pins ∧ (hostWrite p s).rdata = s.rdata ∧
    (hostWrite p s).draws = s.draws ∧ (hostWrite p s).errors = s.errors := by
  unfold hostWrite
  split
  · rcases regWrite_cases s p.addr p.wdata with h | ⟨_, _, h⟩ | ⟨_, r, _, h⟩ <;> rw [h] <;>
      exact ⟨rfl, rfl, rfl, rfl⟩
  · exact ⟨rfl, rfl, rfl, rfl⟩

end Sys2Proof.Machine
end

