-- ==== Sys2Proof/Laws/Numeric.lean ====
section
/-! SUPPORT. The readings of a pattern and the wrapping of an exact result (40_fixedpoint.md R80,
R81, R83; 42_accumulator.md R130). -/

namespace Sys2Proof.Machine

theorem sint_range (a : Word) : -2147483648 ≤ sint a ∧ sint a ≤ 2147483647 := by
  have := a.isLt
  simp only [sint, BitVec.toInt]
  split <;> omega

/-- `wrap32` undoes `sint`. -/
@[simp] theorem wrap32_sint (a : Word) : wrap32 (sint a) = a := by simp [wrap32, sint]

theorem sint_inj {a b : Word} : sint a = sint b ↔ a = b :=
  ⟨fun h => by rw [← wrap32_sint a, h, wrap32_sint], fun h => by rw [h]⟩

/-- Wrapping changes an integer by a multiple of 2^32 (R81). -/
theorem sint_wrap32 (z : Int) : ∃ k : Int, sint (wrap32 z) = z + k * 4294967296 := by
  refine ⟨-((z + 2147483648) / 4294967296), ?_⟩
  simp only [sint, wrap32, BitVec.toInt_ofInt, Int.bmod_def]
  norm_num
  split <;> omega

/-- An integer fits exactly when wrapping does not change it (R81). -/
theorem fits32_iff (z : Int) : fits32 z = true ↔ sint (wrap32 z) = z := by
  obtain ⟨k, hk⟩ := sint_wrap32 z
  have := sint_range (wrap32 z)
  simp only [fits32, decide_eq_true_eq]
  omega

theorem wrap32_add (a b : Int) : wrap32 a + wrap32 b = wrap32 (a + b) := by
  simp [wrap32, BitVec.ofInt_add]

/-- The result pattern of `add` is the sum modulo 2^32 (R97). -/
theorem fxAdd_fst (a b : Word) : (fxAdd a b).1 = a + b := by
  rw [← wrap32_sint a, ← wrap32_sint b, wrap32_add]
  simp [fxAdd, wrapped]

/-- The result pattern of `sub` is the difference modulo 2^32 (R97). -/
theorem fxSub_fst (a b : Word) : (fxSub a b).1 = a - b := by
  simp [fxSub, wrapped, wrap32, sint, sub_eq_add_neg, BitVec.ofInt_add, BitVec.ofInt_neg]

/-- The total of the tree as a sum modulo 2^32, in the order of the tree (R130). -/
theorem tree8_fst (v : Vector Word 8) :
    (tree8 v).1 = ((v[7] + v[6]) + (v[5] + v[4])) + ((v[3] + v[2]) + (v[1] + v[0])) := by
  simp only [tree8, fxAdd_fst]

end Sys2Proof.Machine
end

