-- ==== Sys2Proof/Laws/PerInstr.lean ====
section
/-! SUPPORT. For every command, the fields of the word that stands for it (30_encoding.md R61):
`opcode` is its opcode, `zero` is 0, and `imm5` is its immediate where that fits. -/

namespace Sys2Proof.Laws.EncodedFields

/-- The three fields of the encoded command (R61). -/
def Statement (i : Instr) : Prop :=
  opcodeField (encode i) = i.opcode ∧ zeroField (encode i) = 0 ∧
    (i.wellFormed = true → (imm5Field (encode i)).toNat = i.immediate)

theorem nop : Statement .nop := by refine ⟨?_, ?_, fun _ => ?_⟩ <;> decide
theorem add : Statement .add := by refine ⟨?_, ?_, fun _ => ?_⟩ <;> decide
theorem sub : Statement .sub := by refine ⟨?_, ?_, fun _ => ?_⟩ <;> decide
theorem mul : Statement .mul := by refine ⟨?_, ?_, fun _ => ?_⟩ <;> decide
theorem cmp : Statement .cmp := by refine ⟨?_, ?_, fun _ => ?_⟩ <;> decide
theorem recip : Statement .recip := by refine ⟨?_, ?_, fun _ => ?_⟩ <;> decide
theorem acc : Statement .acc := by refine ⟨?_, ?_, fun _ => ?_⟩ <;> decide
theorem coef : Statement .coef := by refine ⟨?_, ?_, fun _ => ?_⟩ <;> decide
theorem predict : Statement .predict := by refine ⟨?_, ?_, fun _ => ?_⟩ <;> decide
theorem fit : Statement .fit := by refine ⟨?_, ?_, fun _ => ?_⟩ <;> decide

/-- The bits of a word laid out as R61 says. -/
theorem bit_of_layout (imm : BitVec 5) (op : BitVec 8) (j : Nat) :
    BitVec.getLsbD (w := 32) ((0#19 ++ imm) ++ op) j =
      if j < 8 then op.getLsbD j else imm.getLsbD (j - 8) := by
  have h := BitVec.getLsbD_append (x := 0#19 ++ imm) (y := op) (i := j)
  have h' := BitVec.getLsbD_append (x := 0#19) (y := imm) (i := j - 8)
  refine h.trans ?_
  by_cases hj : j < 8
  · simp [hj]
  · by_cases hi : j - 8 < 5
    · simp [hj, h', hi]
    · simp [hj, h', hi, BitVec.getLsbD_of_ge imm (j - 8) (by omega)]

/-- The fields of any word laid out as R61 says. -/
theorem fields_of_layout (imm : BitVec 5) (op : BitVec 8) :
    opcodeField ((0#19 ++ imm) ++ op) = op ∧ imm5Field ((0#19 ++ imm) ++ op) = imm ∧
      zeroField ((0#19 ++ imm) ++ op) = 0 := by
  refine ⟨?_, ?_, ?_⟩ <;> refine BitVec.eq_of_getLsbD_eq fun j hj => ?_
  · simp only [opcodeField, BitVec.getLsbD_extractLsb', bit_of_layout]
    simp [hj]
  · simp only [imm5Field, BitVec.getLsbD_extractLsb', bit_of_layout]
    simp [hj]
  · simp only [zeroField, BitVec.getLsbD_extractLsb', bit_of_layout]
    simp [show ¬ 13 + j < 8 by omega, BitVec.getLsbD_of_ge imm (13 + j - 8) (by omega)]

/-- The two commands of format I share one proof. -/
theorem ofImmediate {i : Instr} (h : i.wellFormed = true → i.immediate < 32) : Statement i := by
  obtain ⟨ho, hi, hz⟩ := fields_of_layout (BitVec.ofNat 5 i.immediate) i.opcode
  refine ⟨ho, hz, fun hw => ?_⟩
  have := congrArg BitVec.toNat hi
  rw [encode, this, BitVec.toNat_ofNat, Nat.mod_eq_of_lt (h hw)]

theorem shl (n : Nat) : Statement (.shl n) :=
  ofImmediate (by simp [Instr.wellFormed, immediateFits, Instr.immediate])

theorem onehot (n : Nat) : Statement (.onehot n) :=
  ofImmediate (by simp [Instr.wellFormed, immediateFits, Instr.immediate])

end Sys2Proof.Laws.EncodedFields
end

