-- ==== Sys2Proof/Laws/Solver.lean ====
section
/-! SUPPORT. Once for each composite function: what each of its answers is and when its overflow bit
is set; cite these instead of unfolding it (42_accumulator.md R134 to R137, 43_solver.md R150 to
R158). -/

namespace Sys2Proof.Machine

/-- The answers of `acc` (R134, R135). -/
theorem acc_values (x : Vector Word 8) :
    (acc x).sumx = (tree8 x).1 ∧
    (acc x).sumxx = (tree8 (perLane fun i => (fxMul x[i] x[i]).1)).1 ∧
    (acc x).det =
      (fxSub (fxMul n8 (acc x).sumxx).1 (fxMul (acc x).sumx (acc x).sumx).1).1 ∧
    (acc x).degen = decide ((acc x).det = 0) := by
  refine ⟨?_, ?_, ?_, ?_⟩
  · simp only [acc]
  · simp only [acc, perLane_get]
  · simp only [acc, determinant]
  · unfold acc; congr

/-- The overflow bit of `acc` is that of some primitive in it (R88, R137). -/
theorem acc_ovf_iff (x : Vector Word 8) :
    (acc x).ovf = true ↔
      (∃ i : Fin 8, (fxMul x[i] x[i]).2 = true) ∨ (tree8 x).2 = true ∨
      (tree8 (perLane fun i => (fxMul x[i] x[i]).1)).2 = true ∨
      (fxMul n8 (acc x).sumxx).2 = true ∨ (fxMul (acc x).sumx (acc x).sumx).2 = true ∨
      (fxSub (fxMul n8 (acc x).sumxx).1 (fxMul (acc x).sumx (acc x).sumx).1).2 = true := by
  simp only [acc, determinant, Bool.or_eq_true, anyLane_eq_true, perLane_get, or_assoc]

/-- The answers of `coef` (R150, R151). -/
theorem coef_values {x y : Vector Word 8} {sumx sumxx s : Word} {r : CoefResult}
    (h : coef x y sumx sumxx s = r) :
    r.c = (fxMul sumxx s).1 ∧ r.d = (fxMul (fxNeg sumx).1 s).1 ∧ r.e = (fxMul n8 s).1 ∧
    r.th0 = (tree8 (perLane fun i =>
      (fxMul (fxAdd r.c (fxMul r.d x[i]).1).1 y[i]).1)).1 ∧
    r.th1 = (tree8 (perLane fun i =>
      (fxMul (fxAdd r.d (fxMul r.e x[i]).1).1 y[i]).1)).1 := by
  subst h
  refine ⟨rfl, rfl, rfl, ?_, ?_⟩ <;> simp only [coef, perLane_get, laneTerms]

/-- The overflow bit of `coef` is that of some primitive in it (R88, R152). -/
theorem coef_ovf_iff {x y : Vector Word 8} {sumx sumxx s : Word} {r : CoefResult}
    (h : coef x y sumx sumxx s = r) :
    r.ovf = true ↔
      (fxMul sumxx s).2 = true ∨ (fxNeg sumx).2 = true ∨ (fxMul (fxNeg sumx).1 s).2 = true ∨
      (fxMul n8 s).2 = true ∨ (∃ i : Fin 8, (laneTerms r.c r.d r.e x[i] y[i]).ovf = true) ∨
      (tree8 (perLane fun i => (laneTerms r.c r.d r.e x[i] y[i]).t0)).2 = true ∨
      (tree8 (perLane fun i => (laneTerms r.c r.d r.e x[i] y[i]).t1)).2 = true := by
  subst h
  simp only [coef, Bool.or_eq_true, anyLane_eq_true, perLane_get, or_assoc]

/-- The overflow bit of a lane is that of one of its six primitives (R88, R151). -/
theorem laneTerms_ovf_iff (c d e xi yi : Word) :
    (laneTerms c d e xi yi).ovf = true ↔
      (fxMul d xi).2 = true ∨ (fxAdd c (fxMul d xi).1).2 = true ∨
      (fxMul (fxAdd c (fxMul d xi).1).1 yi).2 = true ∨ (fxMul e xi).2 = true ∨
      (fxAdd d (fxMul e xi).1).2 = true ∨
      (fxMul (fxAdd d (fxMul e xi).1).1 yi).2 = true := by
  simp only [laneTerms, Bool.or_eq_true, or_assoc]

/-- The answers of `predict` and its overflow bit (R155). -/
theorem predict_values (x : Vector Word 8) (th0 th1 : Word) :
    (∀ i : Fin 8, (predict x th0 th1).1[i] = (fxAdd (fxMul th1 x[i]).1 th0).1) ∧
    ((predict x th0 th1).2 = true ↔
      ∃ i : Fin 8, (fxMul th1 x[i]).2 = true ∨ (fxAdd (fxMul th1 x[i]).1 th0).2 = true) := by
  constructor
  · intro i; simp only [predict, predictLane, perLane_get]
  · simp only [predict, predictLane, perLane_get, anyLane_eq_true, Bool.or_eq_true]

/-! FIT's three stages by name, so that a proof over FIT carries three opaque answers -/

/-- The effect of FIT, given what its three stages answer (R157, R158). -/
def fitEffect (a : AccResult) (q : RecipResult) (c : CoefResult) : Effect where
  reads := xRegs ++ yRegs
  writes :=
    [(.sumx, a.sumx), (.sumxx, a.sumxx), (.det, a.det),
     (.ksh, kshOf q.k), (.seed, q.seed), (.rcp, q.x),
     (.cc, c.c), (.cd, c.d), (.ce, c.e), (.th0, c.th0), (.th1, c.th1)]
  flags := [(.ood, q.ood), (.ovf, a.ovf || q.ovf || c.ovf), (.degen, a.degen)]

/-- FIT is the completion of `fitEffect` of its stages (R157, R158). -/
theorem execFit_stages (s : State) {a : AccResult} {q : RecipResult} {c : CoefResult}
    (ha : acc s.regs.x = a) (hq : recip a.det = q)
    (hc : coef s.regs.x s.regs.y a.sumx a.sumxx q.x = c) :
    execFit s = finish (fitEffect a q c) s := by
  subst ha hq hc
  rfl

end Sys2Proof.Machine
end

