-- ==== Sys2Proof/Machine/HostScript.lean ====
section
/-! DEFINITION. The host's notation for sequences of port actions (30_encoding.md R68, R69). The
core parses none of it: each line is given the port cycles it stands for. -/

namespace Sys2Proof.Machine

/-- The line forms of R68; a register is named by its word index. -/
inductive ScriptLine where
  /-- `WR reg, word`. -/
  | wr (idx : BitVec 6) (v : Word)
  /-- `WRQ reg, real`, the real written `num / den`. -/
  | wrq (idx : BitVec 6) (num : Int) (den : Nat)
  /-- `RD reg`. -/
  | rd (idx : BitVec 6)
  /-- A command's mnemonic. -/
  | command (i : Instr)
  /-- `CMDW word`. -/
  | cmdw (w : Word)
  /-- `WAIT`: read `STATUS` until BUSY reads 0. -/
  | waitDone
  /-- `RESET`. -/
  | reset
deriving DecidableEq, Repr

/-- A cycle that writes `v` at `idx`. -/
def writePin (idx : BitVec 6) (v : Word) : PortIn :=
  { PortIn.idle with we := true, addr := idx, wdata := v }

/-- A cycle that reads `idx`. -/
def readPin (idx : BitVec 6) : PortIn :=
  { PortIn.idle with re := true, addr := idx }

/-- A cycle with `rst = 1` (R220). -/
def resetPin : PortIn := { PortIn.idle with rst := true }

/-- One cycle with `pin` on the port, before what `pins` still holds. -/
def drive (pin : PortIn) (s : State) : Host.Outcome State Fault Refusal :=
  step { s with pins := pin :: s.pins }

/-- Polls of `STATUS` until bit 0 of the word read is 0, at most `fuel` of them (R68, R231). -/
def pollStatus : Nat → State → Host.Outcome State Fault Refusal
  | 0, s => .next s
  | fuel + 1, s =>
    match drive (readPin statusIndex) s with
    | .next t => if t.rdata.getLsbD 0 then pollStatus fuel t else .next t
    | .fault r => .fault r
    | .refused r => .refused r

/-- What one script line does (R68). `wait + 2` polls are enough: the latency is finite (R230), so
the bound never cuts a WAIT short (log entry 13). -/
def runLine (l : ScriptLine) (s : State) : Host.Outcome State Fault Refusal :=
  match l with
  | .wr idx v => drive (writePin idx v) s
  | .wrq idx num den => drive (writePin idx (quantise num den)) s
  | .rd idx => drive (readPin idx) s
  | .command i => drive (writePin cmdIndex (encode i)) s
  | .cmdw w => drive (writePin cmdIndex w) s
  | .waitDone => pollStatus (s.wait + 2) s
  | .reset => drive resetPin s

/-- The lines in order (R68). -/
def runScript : List ScriptLine → State → Host.Outcome State Fault Refusal
  | [], s => .next s
  | l :: rest, s =>
    match runLine l s with
    | .next t => runScript rest t
    | .fault r => .fault r
    | .refused r => .refused r

/-- `CLRF` (R69). -/
def clrf : List ScriptLine := [.command .nop, .waitDone]

/-- `SHL1` (R69). -/
def shl1 : List ScriptLine := [.command (.shl 1)]

/-- `NEG v` (R69). -/
def negScript (v : Word) : List ScriptLine :=
  [.wr (regIndex .opa) 0, .wr (regIndex .opb) v, .command .sub, .waitDone]

/-- `SQR v` (R69). -/
def sqrScript (v : Word) : List ScriptLine :=
  [.wr (regIndex .opa) v, .wr (regIndex .opb) v, .command .mul, .waitDone]

/-- `FROMRAW reg, v` (R69). -/
def fromRaw (idx : BitVec 6) (v : Word) : List ScriptLine := [.wr idx v]

/-- `LOADXY x0..x7 ; y0..y7` (R69). -/
def loadXY (x y : Vector Word 8) : List ScriptLine :=
  (lanes.map fun i => .wr (regIndex (.x i)) x[i]) ++ lanes.map fun i => .wr (regIndex (.y i)) y[i]

/-- `SOLVE` (R69). -/
def solve : List ScriptLine := [.command .fit, .waitDone]

/-- `SOLVEP` (R69). -/
def solveP : List ScriptLine := [.command .fit, .waitDone, .command .predict, .waitDone]

end Sys2Proof.Machine
end

