-- ==== Sys2Proof/Tests/Slice0.lean ====
section
/-! SUPPORT. Tests. Words are written out from the encoding of 30_encoding.md, expected results are
those of 95_test_vectors.md; a theorem `witness_…` shows states and operands that meet the
hypotheses of an obligation. -/

namespace Sys2Proof.Tests

open Sys2Proof Sys2Proof.Machine

/-- An idle core in which every data register has been written: the listed ones as given, the
others with 0. -/
def filled (ws : List (Reg × Word)) : State :=
  { State.reset.writeRegs ws with written := RegFile.const true }

/-- The same with `X` and `Y` as given. -/
def sampled (x y : Vector Word 8) (ws : List (Reg × Word)) : State :=
  let s := filled ws
  { s with regs := { s.regs with x := x, y := y } }

/-- The outcome is a next state with STATUS as given and the listed registers as given. -/
def gives (o : Host.Outcome State Fault Refusal) (status : Word) (rs : List (Reg × Word)) : Bool :=
  match o with
  | .next t => t.status == status && rs.all fun r => t.regs.get r.1 == r.2
  | .fault _ => false
  | .refused _ => false

/-- 0.0 .. 7.0 (95_test_vectors.md section 1.3). -/
def xLinear : Vector Word 8 :=
  #v[0x00000000#32, 0x00010000#32, 0x00020000#32, 0x00030000#32, 0x00040000#32, 0x00050000#32,
    0x00060000#32, 0x00070000#32]

/-- 2x + 1 on 0.0 .. 7.0 (95_test_vectors.md section 1.3). -/
def yLinear : Vector Word 8 :=
  #v[0x00010000#32, 0x00030000#32, 0x00050000#32, 0x00070000#32, 0x00090000#32, 0x000B0000#32,
    0x000D0000#32, 0x000F0000#32]

/-- The general set of 95_test_vectors.md section 2.10. -/
def xGeneral : Vector Word 8 :=
  #v[0x00001999#32, 0x0000CCCC#32, 0x00018000#32, 0x00023333#32, 0x0002E666#32, 0x00039999#32,
    0x00044CCC#32, 0x00050000#32]

/-- The general set of 95_test_vectors.md section 2.10. -/
def yGeneral : Vector Word 8 :=
  #v[0xFFFEB333#32, 0xFFFF7333#32, 0x00003333#32, 0x00010CCC#32, 0x0001B333#32, 0x00029999#32,
    0x00032666#32, 0x00041999#32]

/-- All 3.0 (95_test_vectors.md section 1.4). -/
def xDegenerate : Vector Word 8 := perLane fun _ => 0x00030000#32

/-! ## Well-formedness and encoding -/

theorem test_shl_32_ill_formed : (Instr.shl 32).wellFormed = false := by decide
theorem test_onehot_32_ill_formed : (Instr.onehot 32).wellFormed = false := by decide
theorem test_shl_31_well_formed : (Instr.shl 31).wellFormed = true := by decide

/-- One word per command, bit by bit: 19 zeros, imm5, opcode (R61, R63). -/
theorem test_decode_nop : decode 0b00000000000000000000000000000000#32 = .ok .nop := by decide
theorem test_decode_add : decode 0b00000000000000000000000000000001#32 = .ok .add := by decide
theorem test_decode_sub : decode 0b00000000000000000000000000000010#32 = .ok .sub := by decide
theorem test_decode_mul : decode 0b00000000000000000000000000000011#32 = .ok .mul := by decide
theorem test_decode_shl : decode 0b00000000000000000001011000000100#32 = .ok (.shl 22) := by
  decide
theorem test_decode_cmp : decode 0b00000000000000000000000000000101#32 = .ok .cmp := by decide
theorem test_decode_onehot : decode 0b00000000000000000000011100000110#32 = .ok (.onehot 7) := by
  decide
theorem test_decode_recip : decode 0b00000000000000000000000000010000#32 = .ok .recip := by decide
theorem test_decode_acc : decode 0b00000000000000000000000000010001#32 = .ok .acc := by decide
theorem test_decode_coef : decode 0b00000000000000000000000000010010#32 = .ok .coef := by decide
theorem test_decode_predict : decode 0b00000000000000000000000000010011#32 = .ok .predict := by
  decide
theorem test_decode_fit : decode 0b00000000000000000000000000010100#32 = .ok .fit := by decide

/-- The illegal words of 95_test_vectors.md section 2.7. -/
theorem test_illegal_words :
    decode 0x00000007#32 = .error .unassignedOpcode ∧
    decode 0x0000000F#32 = .error .unassignedOpcode ∧
    decode 0x000000FF#32 = .error .unassignedOpcode ∧
    decode 0x00000100#32 = .error .immediateNotZero ∧
    decode 0x00001F14#32 = .error .immediateNotZero ∧
    decode 0x00002004#32 = .error .reservedBits ∧
    decode 0xFFFFFFFF#32 = .error .reservedBits := by decide

theorem test_encode_words :
    encode (.shl 31) = 0x00001F04#32 ∧ encode (.onehot 16) = 0x00001006#32 ∧
    encode .predict = 0x00000013#32 := by decide

theorem test_table_word :
    decodeTableWord 32 0x00000E04 = some (.shl 14) ∧ decodeTableWord 32 0x00000015 = none := by
  decide

/-! ## The commands (95_test_vectors.md section 2) -/

theorem test_nop : gives (exec .nop (filled [(.opa, 7)])) 0x00000002 [(.opa, 7), (.res, 0)] := by
  decide

theorem test_add_wraps :
    gives (exec .add (filled [(.opa, 0x80000000#32), (.opb, 0xFFFFFFFF#32)])) 0x00000012
      [(.res, 0x7FFFFFFF#32)] := by decide
theorem test_add_fits :
    gives (exec .add (filled [(.opa, 0x7FFFFFFF#32), (.opb, 0x80000000#32)])) 0x00000002
      [(.res, 0xFFFFFFFF#32)] := by decide

theorem test_sub_order :
    gives (exec .sub (filled [(.opa, 0x00018000#32), (.opb, 0x00028000#32)])) 0x00000002
      [(.res, 0xFFFF0000#32)] := by decide
theorem test_sub_wraps :
    gives (exec .sub (filled [(.opa, 0x00000000#32), (.opb, 0x80000000#32)])) 0x00000012
      [(.res, 0x80000000#32)] := by decide

theorem test_mul_floors :
    gives (exec .mul (filled [(.opa, 0xFFFE8000#32), (.opb, 0x000000C3#32)])) 0x00000002
      [(.res, 0xFFFFFEDB#32)] := by decide
theorem test_mul_wraps :
    gives (exec .mul (filled [(.opa, 0x7FFFFFFF#32), (.opb, 0x00010001#32)])) 0x00000012
      [(.res, 0x80007FFE#32)] := by decide

theorem test_shl_sign_changes :
    gives (exec (.shl 1) (filled [(.opa, 0xBFFFFFFF#32)])) 0x00000012
      [(.res, 0x7FFFFFFE#32)] := by decide
theorem test_shl_31_fits :
    gives (exec (.shl 31) (filled [(.opa, 0xFFFFFFFF#32)])) 0x00000002
      [(.res, 0x80000000#32)] := by decide

theorem test_cmp_less :
    gives (exec .cmp (filled [(.opa, 0x80000000#32), (.opb, 0x7FFFFFFF#32), (.res, 5)]))
      0x00000102 [(.res, 5)] := by decide
theorem test_cmp_greater :
    gives (exec .cmp (filled [(.opa, 0x00000000#32), (.opb, 0xFFFFFFFF#32)]))
      0x00000402 [] := by decide

theorem test_onehot_31 : gives (exec (.onehot 31) (filled [])) 0x00000002
    [(.res, 0x80000000#32)] := by decide
theorem test_onehot_needs_no_register :
    gives (exec (.onehot 11) State.reset) 0x00000002 [(.res, 0x00000800#32)] := by decide

theorem test_recip :
    gives (exec .recip (filled [(.det, 0x0B28428F#32)])) 0x00000002
      [(.ksh, 12), (.seed, 0x00000010#32), (.rcp, 0x00000016#32)] := by decide
theorem test_recip_negative :
    gives (exec .recip (filled [(.det, 0xC0000000#32)])) 0x0000001A
      [(.ksh, 0), (.seed, 0x00010000#32), (.rcp, 0x00080000#32)] := by decide

theorem test_acc :
    gives (exec .acc (sampled xGeneral yGeneral [])) 0x00000002
      [(.sumx, 0x00146663#32), (.sumxx, 0x00489987#32), (.det, 0x00A4A3CD#32)] := by decide
theorem test_acc_degenerate :
    gives (exec .acc (sampled xDegenerate yLinear [])) 0x00000022
      [(.sumx, 0x00180000#32), (.sumxx, 0x00480000#32), (.det, 0)] := by decide

theorem test_coef_neg_overflows :
    gives (exec .coef (sampled xLinear yLinear
        [(.sumx, 0x80000000#32), (.sumxx, 0x008C0000#32), (.rcp, 0x000000C3#32)])) 0x00000012
      [(.cc, 0x00006AA4#32), (.cd, 0xFF9E8000#32), (.ce, 0x00000618#32), (.th0, 0x8ACCA900#32),
        (.th1, 0xE7A754E0#32)] := by decide

theorem test_predict :
    gives (exec .predict (sampled xLinear yLinear
        [(.th0, 0xFFFF8000#32), (.th1, 0xFFFE8000#32)])) 0x00000002
      [(.p 0, 0xFFFF8000#32), (.p 1, 0xFFFE0000#32), (.p 7, 0xFFF50000#32)] := by decide
theorem test_predict_overflow :
    gives (exec .predict (sampled xLinear yLinear
        [(.th0, 0x7FFF0000#32), (.th1, 0x00010000#32)])) 0x00000012
      [(.p 0, 0x7FFF0000#32), (.p 1, 0x80000000#32), (.p 7, 0x80060000#32)] := by decide

theorem test_fit_general :
    gives (exec .fit (sampled xGeneral yGeneral [])) 0x00000002
      [(.ksh, 8), (.seed, 0x00000100#32), (.rcp, 0x0000018D#32), (.cc, 0x00007096#32),
        (.cd, 0xFFFFE05D#32), (.ce, 0x00000C68#32), (.th0, 0xFFFE9716#32),
        (.th1, 0x00011684#32)] := by decide
theorem test_fit_degenerate :
    gives (exec .fit (sampled xDegenerate yLinear [])) 0x0000002A
      [(.det, 0), (.ksh, 0), (.rcp, 0x00080000#32), (.cc, 0x02400000#32), (.cd, 0xFF400000#32),
        (.ce, 0x00400000#32)] := by decide

/-! ## The port and the clock edge -/

/-- A busy core: `w` accepted with `wait` edges to pass, `pins` on the port. -/
def busyWith (s : State) (w : Word) (wait : Nat) (pins : List PortIn) : State :=
  { accept s w wait with pins := pins }

/-- The step after `withFetchWord` runs the word as the first command after reset (log entry 9). -/
theorem test_fetch_word_runs :
    gives (step (State.reset.withFetchWord 32 0x00001F06)) 0x00000002
      [(.res, 0x80000000#32)] := by decide

/-- A host write takes effect at its edge (R42, R43). -/
theorem test_host_write :
    gives (step { State.reset with pins := [writePin 0x13#6 0x00100000#32] }) 0x00000000
      [(.det, 0x00100000#32)] := by decide

/-- A write while busy is lost (R46). -/
theorem test_busy_write_is_lost :
    gives (step (busyWith (filled []) 0x14#32 3 [writePin 0x00#6 9])) 0x00000001
      [(.x 0, 0)] := by decide

/-- An illegal word completes with ILL alone (R66). -/
theorem test_illegal_word_completes :
    gives (step (busyWith (filled [(.res, 5)]) 0x00000101#32 0 [])) 0x00000006
      [(.res, 5)] := by decide

/-- A read in the cycle of the completion still sees BUSY (R43, R45). -/
theorem test_read_before_the_edge :
    (match step (busyWith (filled []) 0x00#32 0 [readPin 0x29#6]) with
      | .next t => t.rdata == 0x00000001#32 && t.status == 0x00000002#32
      | .fault _ => false
      | .refused _ => false) = true := by decide

/-- `WAIT` polls until BUSY reads 0 (R68): here three edges and a fourth that reads the end. -/
theorem test_wait_polls_to_the_end :
    gives (runLine .waitDone (busyWith (filled [(.opa, 3), (.opb, 4)]) 0x01#32 2 [])) 0x00000002
      [(.res, 7)] := by decide

/-- `q(t)` floors (00_scope.md section 5): 2856.26, 4095.9 and -0.55 of 95_test_vectors.md. -/
theorem test_quantise :
    quantise 285626 100 = 0x0B28428F#32 ∧ quantise 40959 10 = 0x0FFFE666#32 ∧
    quantise (-55) 100 = 0xFFFF7333#32 := by decide

/-! ## Witnesses: encoding and the primitives -/

theorem witness_encoding :
    (Instr.shl 31).wellFormed = true ∧ (Instr.onehot 0).wellFormed = true ∧
    decode 0x00001F04#32 = .ok (.shl 31) ∧ decode 0x00000004#32 = .ok (.shl 0) := by decide

/-- `AddWrapsAndReportsOverflow`, `MulIsTheFlooredProduct`, `ShlShiftsThePattern`: an operand pair
for each value of the overflow bit. -/
theorem witness_overflow_bits :
    (fxAdd 0x7FFFFFFF#32 1).2 = true ∧ (fxAdd 0x7FFFFFFF#32 0).2 = false ∧
    (fxMul 0x00B60000#32 0x00B60000#32).2 = true ∧
    (fxMul 0x00B50000#32 0x00B50000#32).2 = false ∧
    (fxShl 0x00010000#32 15).2 = true ∧ (fxShl 0x00010000#32 14).2 = false ∧
    (fxShl 0xFFFFFFFF#32 31).2 = false := by decide

/-- `OnehotIsOneBit`, `ArithmeticLaws`, `ShlCompletes`: the ends of each range. -/
theorem witness_ranges :
    0 < 32 ∧ 31 < 32 ∧ 0 ≤ 30 ∧ 30 ≤ 30 ∧ (0 ≤ 14 ∧ 14 ≤ 14) ∧ (1 ≤ 1 ∧ 1 ≤ 16) ∧
    (1 ≤ 16 ∧ 16 ≤ 16) ∧ fxMul 0x7FFFFFFF#32 (fxOnehot 30) = fxShl 0x7FFFFFFF#32 14 ∧
    (fxMul 0x80000000#32 (fxOnehot 0)).1 = 0xFFFF8000#32 := by decide

/-! ## Witnesses: the commands -/

/-- `AddCompletes` to `CmpCompletes`, `RecipCompletes`. -/
theorem witness_operands_written :
    (filled [(.opa, 3), (.opb, 4)]).written.opa = true ∧
    (filled [(.opa, 3), (.opb, 4)]).written.opb = true ∧
    (filled [(.det, 5)]).written.det = true := by decide

/-- `AccCompletes`, `CoefCompletes`, `PredictCompletes`, `FitCompletes`,
`FitIsAccThenRecipThenCoef`. -/
theorem witness_samples_written :
    (∀ i : Fin 8, (sampled xLinear yLinear []).written.x[i] = true) ∧
    (∀ i : Fin 8, (sampled xLinear yLinear []).written.y[i] = true) ∧
    (sampled xLinear yLinear []).written.sumx = true ∧
    (sampled xLinear yLinear []).written.sumxx = true ∧
    (sampled xLinear yLinear []).written.rcp = true ∧
    (sampled xLinear yLinear []).written.th0 = true ∧
    (sampled xLinear yLinear []).written.th1 = true := by decide

/-- `ScanClosedForm`, `ReciprocalIsAccurate`, `ReciprocalOutsideTheAccurateRange`: the ends of each
clause. -/
theorem witness_recip_ranges :
    (sint 0x80000000#32 < 0x10000 ∧ sint 0x0000FFFF#32 < 0x10000) ∧
    ((2 : Int) ^ (15 + 1) ≤ sint 0x00010000#32 ∧ sint 0x0001FFFF#32 < (2 : Int) ^ (16 + 1)) ∧
    ((2 : Int) ^ (15 + 14) ≤ sint 0x20000000#32 ∧ sint 0x3FFFFFFF#32 < (2 : Int) ^ (16 + 14)) ∧
    (sint 0x40000000#32 ≥ 0x40000000 ∧ sint 0x7FFFFFFF#32 ≥ 0x40000000) ∧
    (0x8000 ≤ sint 0x00008000#32 ∧ sint 0x3FFFFFFF#32 ≤ 0x3FFFFFFF) ∧
    (1 ≤ sint 0x00000001#32 ∧ sint 0x00007FFF#32 ≤ 0x7FFF) ∧
    (sint 0x80000000#32 < 0 ∧ sint 0xFFFFFFFF#32 < 0) := by decide

/-- The answers of `recip` at those ends (95_test_vectors.md section 2.8). -/
theorem test_recip_range_ends :
    (recip 0x00008000#32).x = 0x0001FE00#32 ∧ (recip 0x3FFFFFFF#32).x = 0x00000004#32 ∧
    (recip 0x00000001#32).x = 0x0007FFEC#32 ∧ (recip 0x00007FFF#32).x = 0x0001FE04#32 ∧
    (recip 0x7FFFFFFF#32).k = 16 ∧ (recip 0xFFFFFFFF#32).x = 0x00080024#32 := by decide

/-- `FitIgnoresTheOrderOfTheSamples`: lanes 0 and 7 exchanged. -/
theorem witness_order :
    (∀ i : Fin 8, (sampled xLinear yLinear []).regs.x[i] =
      (sampled (perLane fun j => xLinear[Equiv.swap (0 : Fin 8) 7 j])
        (perLane fun j => yLinear[Equiv.swap (0 : Fin 8) 7 j]) []).regs.x[
          Equiv.swap (0 : Fin 8) 7 i]) ∧
    (∀ i : Fin 8, (sampled xLinear yLinear []).regs.y[i] =
      (sampled (perLane fun j => xLinear[Equiv.swap (0 : Fin 8) 7 j])
        (perLane fun j => yLinear[Equiv.swap (0 : Fin 8) 7 j]) []).regs.y[
          Equiv.swap (0 : Fin 8) 7 i]) ∧
    (∀ i : Fin 8, (sampled (perLane fun j => xLinear[Equiv.swap (0 : Fin 8) 7 j])
        (perLane fun j => yLinear[Equiv.swap (0 : Fin 8) 7 j]) []).written.x[i] = true ∧
      (sampled (perLane fun j => xLinear[Equiv.swap (0 : Fin 8) 7 j])
        (perLane fun j => yLinear[Equiv.swap (0 : Fin 8) 7 j]) []).written.y[i] = true) := by
  decide

/-- `DegenerateFitGoesOn`. -/
theorem witness_degenerate :
    (acc (sampled xDegenerate yLinear []).regs.x).det = 0 ∧
    (∀ i : Fin 8, (sampled xDegenerate yLinear []).written.x[i] = true) ∧
    (∀ i : Fin 8, (sampled xDegenerate yLinear []).written.y[i] = true) := by decide

/-- `CommandsDependOnlyOnTheirReads`: two different states, both ready, that agree on what the
command reads. -/
theorem witness_same_reads :
    (sampled xLinear yLinear []).ready .fit = true ∧
    (sampled xLinear yLinear [(.opa, 9)]).ready .fit = true ∧
    ((readsOf .fit).all fun r => (sampled xLinear yLinear []).regs.get r ==
      (sampled xLinear yLinear [(.opa, 9)]).regs.get r) = true ∧
    sampled xLinear yLinear [] ≠ sampled xLinear yLinear [(.opa, 9)] := by decide

/-- `EveryCommandCompletes`: a register and a flag that a command does not touch, one it writes. -/
theorem witness_columns :
    Reg.res ∈ writesOf .add ∧ Reg.opa ∉ writesOf .add ∧ Flag.degen ∉ flagsOf .add := by decide

/-- The next state of an outcome that has one. -/
def nextOr (o : Host.Outcome State Fault Refusal) (d : State) : State :=
  match o with
  | .next t => t
  | .fault _ => d
  | .refused _ => d

/-- `FlagCombinations`: a degenerate FIT, a FIT with OOD alone, RECIP at both ends of the domain,
CMP. -/
theorem witness_flags :
    (sampled xDegenerate yLinear []).ready .fit = true ∧
    exec .fit (sampled xDegenerate yLinear []) =
      .next (nextOr (exec .fit (sampled xDegenerate yLinear [])) State.reset) ∧
    (nextOr (exec .fit (sampled xDegenerate yLinear [])) State.reset).flag .degen = true ∧
    (filled [(.det, 0x40000000#32)]).ready .recip = true ∧
    sint (filled [(.det, 0x40000000#32)]).regs.det ≥ 0x40000000 ∧
    exec .recip (filled [(.det, 0x40000000#32)]) =
      .next (nextOr (exec .recip (filled [(.det, 0x40000000#32)])) State.reset) ∧
    sint (filled [(.det, 0)]).regs.det ≤ 0 ∧
    (filled []).ready .cmp = true ∧
    exec .cmp (filled []) = .next (nextOr (exec .cmp (filled [])) State.reset) := by
  refine ⟨by decide, rfl, by decide, by decide, by decide, rfl, by decide, by decide, rfl⟩

/-- A FIT with OOD and without DEGEN: the squares floor to 0, DET is negative
(95_test_vectors.md section 2.9). -/
theorem test_fit_ood_alone :
    gives (exec .fit (sampled
      #v[0x00#32, 0x10#32, 0x20#32, 0x30#32, 0x40#32, 0x50#32, 0x60#32, 0x70#32] xLinear []))
      0x0000000A [(.det, 0xFFFFFFFD#32)] := by decide

/-- `IllegalWordsCompleteWithIll`: a word of each kind. -/
theorem witness_illegal :
    decode 0x00002000#32 = .error .reservedBits ∧
    decode 0x00000015#32 = .error .unassignedOpcode ∧
    decode 0x00000100#32 = .error .immediateNotZero := by decide

/-! ## Witnesses: the port -/

/-- `RegReadFollowsTheMap`, `RegWriteFollowsTheMap`, `ReservedIndicesHoldNothing`,
`WriteToCmdIsAccepted`: busy and idle cores, the indices at the ends of the ranges. -/
theorem witness_port :
    (filled []).busy = false ∧ (filled []).written.get (.p 7) = true ∧
    (busyWith (filled []) 0x14#32 0 []).busy = true ∧
    0x2A ≤ (0x2A#6).toNat ∧ 0x2A ≤ (0x3F#6).toNat ∧
    ¬ (0x27#6 = 0x28#6 ∨ 0x27#6 = 0x29#6 ∨ 0x27#6 = 0x19#6 ∨ 0x27#6 = 0x1F#6 ∨
      0x2A ≤ (0x27#6).toNat) ∧
    ¬ (0x00#6 = 0x28#6 ∨ 0x00#6 = 0x29#6 ∨ 0x00#6 = 0x19#6 ∨ 0x00#6 = 0x1F#6 ∨
      0x2A ≤ (0x00#6).toNat) := by decide

/-- `RegisterMapIsOneToOne`. -/
theorem witness_map :
    portTarget 0x1E#6 = .data .th1 ∧ portTarget 0x20#6 = .data (.p 0) ∧
    portTarget 0x1F#6 = .reserved := by decide

/-! ## Witnesses: the clocked machine -/

/-- `StepRunsTheDecodedCommand`. -/
theorem witness_step_runs :
    (State.reset.withFetchWord 32 0x11).pend = some 0x11#32 ∧ decode 0x11#32 = .ok .acc ∧
    (State.reset.withFetchWord 32 0x11).wait = 0 ∧
    (State.reset.withFetchWord 32 0x11).busy = true ∧
    (currentPin (State.reset.withFetchWord 32 0x11)).rst = false := by decide

/-- A core busy with FIT, two edges from its completion, while the host writes X0, then CMD. -/
def busyFit : State :=
  busyWith (sampled xLinear yLinear []) 0x14#32 2 [writePin 0x00#6 9, writePin 0x28#6 1]

/-- `ConsistencyIsKept`, `AcceptedCommandCompletes`, `DonePinRisesAndFalls`: a consistent busy
state, no reset in the cycles to come, and its next state. -/
theorem witness_busy_consistent :
    busyFit.Consistent ∧ busyFit.pend = some 0x14#32 ∧
    (∀ p ∈ busyFit.pins.take (busyFit.wait + 1), p.rst = false) ∧
    (sampled xLinear yLinear []).ready .fit = true ∧ decode 0x14#32 = .ok .fit ∧
    step busyFit = .next (nextOr (step busyFit) State.reset) := by
  refine ⟨?_, by decide, by decide, by decide, by decide, rfl⟩
  constructor <;> decide

/-- `AcceptedCommandCompletes`: an illegal word. -/
theorem witness_busy_illegal :
    (busyWith (filled []) 0x15#32 0 []).Consistent ∧
    (busyWith (filled []) 0x15#32 0 []).pend = some 0x15#32 ∧
    decode 0x15#32 = .error .unassignedOpcode := by
  refine ⟨?_, by decide, by decide⟩
  constructor <;> decide

/-- `DonePinRisesAndFalls`: the pin rises as NOP completes; it falls as the host issues ADD. -/
theorem witness_done_pin :
    (busyWith (filled []) 0x00#32 0 []).donePin = false ∧
    (nextOr (step (busyWith (filled []) 0x00#32 0 [])) State.reset).donePin = true ∧
    ({ filled [] with status := 0x00000002#32, pins := [writePin 0x28#6 1] } : State).donePin =
      true ∧
    (nextOr (step { filled [] with status := 0x00000002#32, pins := [writePin 0x28#6 1] })
      (filled [])).donePin = false := by decide

/-- `DonePinRisesAndFalls`: both states are consistent. -/
theorem witness_done_pin_consistent :
    (busyWith (filled []) 0x00#32 0 []).Consistent ∧
    ({ filled [] with status := 0x00000002#32, pins := [writePin 0x28#6 1] } : State).Consistent := by
  constructor <;> constructor <;> decide

/-- `ResetEdgeAbandonsTheCommand`: a reset while FIT runs. -/
theorem witness_reset_edge :
    (currentPin (busyWith (filled []) 0x14#32 3 [resetPin])).rst = true ∧
    (busyWith (filled []) 0x14#32 3 [resetPin]).busy = true := by decide

/-- `ReadsChangeNothing`: reads of `TH1` and of STATUS. -/
theorem witness_reads :
    ∀ idx ∈ [0x1E#6, 0x29#6],
      ({ filled [] with pins := [readPin idx] } : State).pend = none ∧
      (currentPin { filled [] with pins := [readPin idx] }).rst = false ∧
      (currentPin { filled [] with pins := [readPin idx] }).we = false ∧
      (currentPin { filled [] with pins := [readPin idx] }).re = true ∧
      (idx = 0x29#6 ∨ idx = regIndex .th1) ∧
      ({ filled [] with pins := [readPin idx] } : State).busy = false ∧
      ({ filled [] with pins := [readPin idx] } : State).written.get .th1 = true := by decide

/-- `HostWriteIsPerformedAtTheEdge`: an idle core; the host writes X0, P7, CMD, STATUS, NCNT and the
reserved indices at the ends of their ranges, and reads in the same cycle. -/
theorem witness_host_write :
    (filled []).Consistent ∧
    ∀ idx ∈ [0x00#6, 0x27#6, 0x28#6, 0x29#6, 0x19#6, 0x1F#6, 0x2A#6, 0x3F#6],
      ({ filled [] with pins := [{ writePin idx 9 with re := true }] } : State).pend = none ∧
      (currentPin { filled [] with pins := [{ writePin idx 9 with re := true }] }).rst = false ∧
      (currentPin { filled [] with pins := [{ writePin idx 9 with re := true }] }).we = true ∧
      (currentPin { filled [] with pins := [{ writePin idx 9 with re := true }] }).re = true ∧
      (idx = regIndex (.x 0) ∨ idx = regIndex (.p 7) ∨ idx = 0x28#6 ∨ idx = 0x29#6 ∨
        idx = 0x19#6 ∨ idx = 0x1F#6 ∨ 0x2A ≤ idx.toNat) := by
  refine ⟨?_, by decide⟩
  constructor <;> decide

/-- The same cycle writes X0 and reads it: the read is that of the state before (R43). -/
theorem test_read_and_write :
    (match step { filled [(.x 0, 5)] with pins := [{ writePin 0x00#6 9 with re := true }] } with
      | .next t => t.rdata == 5#32 && t.regs.get (.x 0) == 9#32
      | .fault _ => false
      | .refused _ => false) = true := by decide

/-- `ReadDataIsThatBeforeTheEdge`: a read in the cycle of a reset, and one at a completing edge. -/
theorem witness_read_data :
    (currentPin { filled [] with pins := [{ readPin 0x13#6 with rst := true }] }).re = true ∧
    (currentPin (busyWith (filled []) 0x00#32 0 [readPin 0x29#6])).re = true := by decide

/-- `DonePinRisesAndFalls`: each clause's premises, for a completion, an accept and a reset. -/
theorem witness_done_pin_clauses :
    ((busyWith (filled []) 0x00#32 0 []).pend.isSome = true ∧
      (busyWith (filled []) 0x00#32 0 []).wait = 0 ∧
      (currentPin (busyWith (filled []) 0x00#32 0 [])).rst = false) ∧
    (({ filled [] with status := 0x00000002#32, pins := [writePin 0x28#6 1] } : State).pend =
        none ∧
      (currentPin { filled [] with status := 0x00000002#32, pins := [writePin 0x28#6 1] }).we =
        true ∧
      (currentPin { filled [] with status := 0x00000002#32, pins := [writePin 0x28#6 1] }).addr =
        0x28#6) ∧
    (currentPin { filled [] with status := 0x00000002#32, pins := [resetPin] }).rst = true := by
  decide

/-- `BusyIgnoresHostWrites`: the same busy core with two hosts. -/
theorem witness_two_hosts :
    busyFit.busy = true ∧ (currentPin busyFit).rst = false ∧
    (currentPin { busyFit with pins := [writePin 0x28#6 0x10] }).rst = false ∧
    busyFit ≠ { busyFit with pins := [writePin 0x28#6 0x10] } := by decide

/-- `SamplesChangeOnlyByHostWrites`: the host writes Y3; X3 is not reached. -/
theorem witness_other_write :
    (currentPin { filled [] with pins := [writePin 0x0B#6 7] }).rst = false ∧
    (currentPin { filled [] with pins := [writePin 0x0B#6 7] }).addr ≠ regIndex (.x 3) ∧
    step { filled [] with pins := [writePin 0x0B#6 7] } =
      .next (nextOr (step { filled [] with pins := [writePin 0x0B#6 7] }) State.reset) :=
  ⟨by decide, by decide, rfl⟩

/-- `ErrorRecordIsSticky`: an overflow is recorded. -/
theorem witness_error_record :
    exec .add (filled [(.opa, 0x7FFFFFFF#32), (.opb, 1)]) =
      .next (nextOr (exec .add (filled [(.opa, 0x7FFFFFFF#32), (.opb, 1)])) State.reset) ∧
    (nextOr (exec .add (filled [(.opa, 0x7FFFFFFF#32), (.opb, 1)])) State.reset).errors =
      0b0100#4 := ⟨rfl, by decide⟩

/-- `ErrorRecordIsSticky`: an illegal word is recorded. -/
theorem witness_error_record_illegal :
    completeWord 0x00000015#32 (filled []) =
      .next (nextOr (completeWord 0x00000015#32 (filled [])) State.reset) ∧
    (nextOr (completeWord 0x00000015#32 (filled [])) State.reset).errors = 0b0001#4 :=
  ⟨rfl, by decide⟩

end Sys2Proof.Tests
end

section
/-! PROOFS. The registers of 10_state.md: the hardwired `NCNT` (R17). -/

namespace Sys2Proof.Machine

/-- The register map puts `NCNT` at its index (R10). -/
theorem portTarget_ncntIndex : portTarget ncntIndex = .ncnt := by decide

/-- `NCNT` reads N8 whatever the state holds: the read consults neither `BUSY` nor a register. -/
theorem regRead_of_ncnt {idx : BitVec 6} (h : portTarget idx = .ncnt) (s : State) :
    regRead s idx = n8 := by
  unfold regRead
  rw [h]

/-- A host write to `NCNT` is ignored: it is neither the accept nor a data register's write. -/
theorem regWrite_of_ncnt {idx : BitVec 6} (h : portTarget idx = .ncnt) (s : State) (v : Word) :
    regWrite s idx v = s := by
  obtain hsame | ⟨-, hcmd, -⟩ | ⟨-, r, hdata, -⟩ := regWrite_cases s idx v
  · exact hsame
  · cases h.symm.trans hcmd
  · cases h.symm.trans hdata

/-- Settles O41: index 0x19 is `NCNT`'s, which reads N8 and ignores writes in every state. -/
theorem ncntIsHardwired : Obligations.NcntIsHardwired := by
  have reads (s : State) : regRead s 0x19#6 = 0x00080000#32 :=
    regRead_of_ncnt portTarget_ncntIndex s
  have ignores (s : State) (v : Word) : regWrite s 0x19#6 v = s :=
    regWrite_of_ncnt portTarget_ncntIndex s v
  exact ⟨reads, reads State.reset, ignores⟩

end Sys2Proof.Machine
end

section
/-! PROOFS. The host port of 20_memory.md: the register write (R42), the accept (R44) and the
reserved indices (R55). -/

namespace Sys2Proof.Machine

/-! What the register map (R10) puts at an index, for each kind of target -/

theorem portTarget_eq_cmd_iff (idx : BitVec 6) : portTarget idx = .cmd ↔ idx = cmdIndex := by
  decide +revert

theorem portTarget_eq_status_iff (idx : BitVec 6) :
    portTarget idx = .status ↔ idx = statusIndex := by
  decide +revert

theorem portTarget_eq_ncnt_iff (idx : BitVec 6) : portTarget idx = .ncnt ↔ idx = ncntIndex := by
  decide +revert

theorem portTarget_eq_reserved_iff (idx : BitVec 6) :
    portTarget idx = .reserved ↔ idx = 0x1F#6 ∨ 0x2A ≤ idx.toNat := by
  decide +revert

/-- An index in a block of eight is the block's base plus the lane the map reads off it. -/
theorem ofNat_base_add_lane {idx : BitVec 6} {base : Nat} (hlo : base ≤ idx.toNat)
    (hhi : idx.toNat < base + 8) :
    BitVec.ofNat 6 (base + Fin.ofNat 8 (idx.toNat - base)) = idx := by
  have hlane : base + (idx.toNat - base) % 8 = idx.toNat := by omega
  rw [Fin.val_ofNat, hlane, BitVec.ofNat_toNat, BitVec.setWidth_eq]

/-- The index of the data register found at `idx` is `idx`: no two indices name the same one. -/
theorem regIndex_of_portTarget_data {idx : BitVec 6} {r : Reg} (h : portTarget idx = .data r) :
    regIndex r = idx := by
  simp only [portTarget] at h
  split_ifs at h with hx hy hnamed hp
  · cases h
    simpa [regIndex] using ofNat_base_add_lane (Nat.zero_le idx.toNat) (by omega)
  · cases h
    exact ofNat_base_add_lane (by omega) (by omega)
  · apply BitVec.eq_of_toNat_eq
    split at h <;> cases h <;> simp [regIndex, *]
  · cases h
    exact ofNat_base_add_lane (by omega) (by omega)

/-- An index that none of `CMD`, `STATUS`, `NCNT` and the reserved range takes is a data
register's. -/
theorem portTarget_data_of_not_special {idx : BitVec 6}
    (h : ¬ (idx = cmdIndex ∨ idx = statusIndex ∨ idx = ncntIndex ∨ idx = 0x1F#6 ∨
      0x2A ≤ idx.toNat)) :
    ∃ r, portTarget idx = .data r := by
  cases ht : portTarget idx with
  | data r => exact ⟨r, rfl⟩
  | cmd => exact absurd (.inl ((portTarget_eq_cmd_iff idx).mp ht)) h
  | status => exact absurd (.inr (.inl ((portTarget_eq_status_iff idx).mp ht))) h
  | ncnt => exact absurd (.inr (.inr (.inl ((portTarget_eq_ncnt_iff idx).mp ht)))) h
  | reserved => exact absurd (.inr (.inr (.inr ((portTarget_eq_reserved_iff idx).mp ht)))) h

/-! `RegRead` and `RegWrite`, by what the index names -/

theorem regRead_of_reserved {idx : BitVec 6} (h : portTarget idx = .reserved) (s : State) :
    regRead s idx = 0 := by
  unfold regRead
  rw [h]

/-- A host write at `CMD` to an idle core is the accept (R44). -/
theorem regWrite_of_cmd {s : State} {idx : BitVec 6} (hb : s.busy = false)
    (h : portTarget idx = .cmd) (v : Word) :
    regWrite s idx v = accept s v (Config.freeLatency s.draws v s.regs.get) := by
  simp [regWrite, hb, h]

/-- A host write to a data register of an idle core (R42). -/
theorem regWrite_of_data {s : State} {idx : BitVec 6} {r : Reg} (hb : s.busy = false)
    (h : portTarget idx = .data r) (v : Word) : regWrite s idx v = s.writeReg r v := by
  simp [regWrite, hb, h]

/-- A host write where there is neither `CMD` nor a data register has no effect (R42, R55). -/
theorem regWrite_of_ignored {idx : BitVec 6} (hcmd : portTarget idx ≠ .cmd)
    (hdata : ∀ r, portTarget idx ≠ .data r) (s : State) (v : Word) : regWrite s idx v = s := by
  obtain hsame | ⟨-, hc, -⟩ | ⟨-, r, hd, -⟩ := regWrite_cases s idx v
  · exact hsame
  · exact absurd hc hcmd
  · exact absurd hd (hdata r)

theorem regWrite_of_reserved {idx : BitVec 6} (h : portTarget idx = .reserved) (s : State)
    (v : Word) : regWrite s idx v = s :=
  regWrite_of_ignored (by simp [h]) (by simp [h]) s v

theorem regWrite_of_status {idx : BitVec 6} (h : portTarget idx = .status) (s : State)
    (v : Word) : regWrite s idx v = s :=
  regWrite_of_ignored (by simp [h]) (by simp [h]) s v

/-! `STATUS` from the accept on (R44) -/

@[simp] theorem accept_busy (s : State) (w : Word) (n : Nat) : (accept s w n).busy = true := by
  simp only [State.busy, accept_status]
  decide

@[simp] theorem accept_doneFlag (s : State) (w : Word) (n : Nat) :
    (accept s w n).doneFlag = false := by
  simp only [State.doneFlag, accept_status]
  decide

@[simp] theorem accept_flag (s : State) (w : Word) (n : Nat) (f : Flag) :
    (accept s w n).flag f = false := by
  simp only [State.flag, accept_status]
  cases f <;> decide

/-- Settles O39: while idle, each kind of index has its own rule for the write; the data register's
leaves every other register and every other field as it was. -/
theorem regWriteFollowsTheMap : Obligations.RegWriteFollowsTheMap := by
  intro s idx v
  refine ⟨fun hb => regWrite_busy hb idx v, fun hb hidx => ?cmd, fun hb hidx => ?ignored,
    fun hb hidx => ?data⟩
  case cmd => exact ⟨_, regWrite_of_cmd hb ((portTarget_eq_cmd_iff idx).mpr hidx) v⟩
  case ignored =>
    obtain hstatus | hncnt | hreserved := hidx
    · exact regWrite_of_status ((portTarget_eq_status_iff idx).mpr hstatus) s v
    · exact regWrite_of_ncnt ((portTarget_eq_ncnt_iff idx).mpr hncnt) s v
    · exact regWrite_of_reserved ((portTarget_eq_reserved_iff idx).mpr hreserved) s v
  case data =>
    obtain ⟨r, hr⟩ := portTarget_data_of_not_special hidx
    rw [regWrite_of_data hb hr]
    have frame (r' : Reg) (hne : r' ≠ r) :
        (s.writeReg r v).regs.get r' = s.regs.get r' ∧
        (s.writeReg r v).written.get r' = s.written.get r' := by
      simp [hne.symm]
    exact ⟨r, regIndex_of_portTarget_data hr, by simp, by simp, frame, rfl⟩

/-- Settles O40: the register map has nothing at a reserved index to read or to write. -/
theorem reservedIndicesHoldNothing : Obligations.ReservedIndicesHoldNothing := by
  intro s idx v hidx
  have hreserved : portTarget idx = .reserved := (portTarget_eq_reserved_iff idx).mpr hidx
  exact ⟨regRead_of_reserved hreserved s, regWrite_of_reserved hreserved s v⟩

/-- Settles O43: on an idle core the write to `CMD` is the accept, which looks at no bit of the
word. -/
theorem writeToCmdIsAccepted : Obligations.WriteToCmdIsAccepted := by
  intro s w hb
  have hcmd : portTarget 0x28#6 = .cmd := (portTarget_eq_cmd_iff _).mpr rfl
  rw [regWrite_of_cmd hb hcmd]
  exact ⟨accept_pend .., accept_status .., accept_regs .., accept_written .., accept_flag s w _,
    accept_busy .., accept_doneFlag ..⟩

end Sys2Proof.Machine
end

section
/-! PROOFS. The readings of a result under the overflow policy (R81), and `add`, `sub`, `neg` over
them (40_fixedpoint.md R83 to R85). -/

namespace Sys2Proof.Machine

/-! The sign bit of a pattern, and what `wrapped` answers -/

theorem msb_eq_sint_neg (a : Word) : a.msb = decide (sint a < 0) := BitVec.msb_eq_toInt

@[simp] theorem sint_zero : sint 0#32 = 0 := by decide

theorem sint_mostNegative : sint 0x80000000#32 = -2147483648 := by decide

/-- No overflow bit: the result pattern stands for the exact result (R81, R88). -/
theorem wrapped_fits_iff (z : Int) : (wrapped z).2 = false ↔ sint (wrapped z).1 = z := by
  simpa [wrapped] using fits32_iff z

theorem wrapped_ovf_iff (z : Int) :
    (wrapped z).2 = true ↔ ¬ (-2147483648 ≤ z ∧ z ≤ 2147483647) := by
  simp only [wrapped, fits32, Bool.not_eq_true', decide_eq_false_iff_not]

@[simp] theorem wrapped_sint (a : Word) : wrapped (sint a) = (a, false) := by
  simp [wrapped, (fits32_iff (sint a)).mpr]

/-- An exact result of 33 bits that does not fit is off by one turn of 2^32. -/
theorem sint_wrapped_of_ovf {z : Int} (hlo : -4294967296 ≤ z) (hhi : z ≤ 4294967295)
    (h : (wrapped z).2 = true) :
    sint (wrapped z).1 = z + 4294967296 ∨ sint (wrapped z).1 = z - 4294967296 := by
  obtain ⟨k, hk⟩ := sint_wrap32 z
  have hrange := sint_range (wrap32 z)
  rw [wrapped_ovf_iff] at h
  change sint (wrap32 z) = _ ∨ sint (wrap32 z) = _
  omega

/-- An exact result of 33 bits overflows exactly when the result pattern has the wrong sign. -/
theorem wrapped_ovf_iff_sign {z : Int} (hlo : -4294967296 ≤ z) (hhi : z ≤ 4294967295) :
    (wrapped z).2 = true ↔ (wrapped z).1.msb ≠ decide (z < 0) := by
  have hrange := sint_range (wrapped z).1
  rw [msb_eq_sint_neg, ne_eq, decide_eq_decide]
  cases h : (wrapped z).2 with
  | false => simp [(wrapped_fits_iff z).mp h]
  | true =>
    have hturn := sint_wrapped_of_ovf hlo hhi h
    rw [wrapped_ovf_iff] at h
    simp only [true_iff]
    omega

/-! `add` (R83) -/

theorem fxAdd_val_of_fits {a b : Word} (h : (fxAdd a b).2 = false) :
    val (fxAdd a b).1 = val a + val b := by
  have hz : sint (fxAdd a b).1 = sint a + sint b := (wrapped_fits_iff _).mp h
  simp only [val, hz, Int.cast_add, add_div]

theorem fxAdd_val_of_ovf {a b : Word} (h : (fxAdd a b).2 = true) :
    val (fxAdd a b).1 = val a + val b + 65536 ∨ val (fxAdd a b).1 = val a + val b - 65536 := by
  have ha := sint_range a
  have hb := sint_range b
  have hturn : sint (fxAdd a b).1 = sint a + sint b + 4294967296 ∨
      sint (fxAdd a b).1 = sint a + sint b - 4294967296 :=
    sint_wrapped_of_ovf (by omega) (by omega) h
  refine hturn.imp (fun hz => ?_) (fun hz => ?_) <;> simp only [val, hz] <;> push_cast <;> ring

/-- Operands of different signs cannot overflow; with equal signs the sum's sign is theirs. -/
theorem fxAdd_ovf_iff_msb (a b : Word) :
    (fxAdd a b).2 = true ↔ a.msb = b.msb ∧ (fxAdd a b).1.msb ≠ a.msb := by
  have ha := sint_range a
  have hb := sint_range b
  by_cases hsign : a.msb = b.msb
  · have hsum : decide (sint a + sint b < 0) = a.msb := by
      simp only [msb_eq_sint_neg, decide_eq_decide] at hsign ⊢
      omega
    rw [← hsum, and_iff_right (hsum.trans hsign)]
    exact wrapped_ovf_iff_sign (by omega) (by omega)
  · simp only [hsign, false_and, iff_false, fxAdd, wrapped_ovf_iff]
    simp only [msb_eq_sint_neg, decide_eq_decide] at hsign
    omega

/-- Settles O5: a sum of two patterns has 33 bits, so it is off by at most one turn. -/
theorem addWrapsAndReportsOverflow : Obligations.AddWrapsAndReportsOverflow := by
  intro a b
  exact ⟨rfl, fxAdd_val_of_fits, fxAdd_val_of_ovf, fxAdd_ovf_iff_msb a b⟩

/-! `sub` and `neg` (R84, R85) -/

/-- Operands of equal signs cannot overflow; otherwise the difference has the first one's sign. -/
theorem fxSub_ovf_iff_msb (a b : Word) :
    (fxSub a b).2 = true ↔ a.msb ≠ b.msb ∧ (fxSub a b).1.msb ≠ a.msb := by
  have ha := sint_range a
  have hb := sint_range b
  by_cases hsign : a.msb = b.msb
  · simp only [hsign, ne_eq, not_true_eq_false, false_and, iff_false, fxSub, wrapped_ovf_iff]
    simp only [msb_eq_sint_neg, decide_eq_decide] at hsign
    omega
  · have hdiff : decide (sint a - sint b < 0) = a.msb := by
      simp only [msb_eq_sint_neg, decide_eq_decide] at hsign ⊢
      omega
    rw [and_iff_right hsign, ← hdiff]
    exact wrapped_ovf_iff_sign (by omega) (by omega)

/-- Settles O6: a difference of two patterns has 33 bits, so its sign tells the overflow. -/
theorem subWrapsAndReportsOverflow : Obligations.SubWrapsAndReportsOverflow := by
  intro a b
  exact ⟨rfl, fxSub_ovf_iff_msb a b⟩

theorem fxNeg_eq_wrapped (a : Word) : fxNeg a = wrapped (-sint a) := by
  rw [fxNeg, fxSub]
  simp

/-- The result pattern of `neg` is the negation modulo 2^32 (R97). -/
theorem fxNeg_fst (a : Word) : (fxNeg a).1 = -a := by
  rw [fxNeg, fxSub_fst]
  exact zero_sub a

theorem fxNeg_ovf_iff (a : Word) : (fxNeg a).2 = true ↔ a = 0x80000000#32 := by
  have ha := sint_range a
  rw [fxNeg_eq_wrapped, wrapped_ovf_iff, ← sint_inj, sint_mostNegative]
  omega

/-- Settles O7: `-sint a` fits unless `a` is the one pattern without a positive counterpart. -/
theorem negIsSubtractionFromZero : Obligations.NegIsSubtractionFromZero := by
  refine ⟨fun a => ⟨rfl, ?_, fxNeg_ovf_iff a⟩, by decide, by decide⟩
  rw [fxNeg_eq_wrapped, wrapped]

end Sys2Proof.Machine
end

section
/-! PROOFS. `mul`: the floored product and the bits of the 64-bit product (40_fixedpoint.md R86). -/

namespace Sys2Proof.Machine

/-- A field of a pattern is the pattern of the floored quotient of its signed reading. -/
theorem extractLsb'_eq_ofInt {w : Nat} (x : BitVec w) {s m : Nat} (h : s + m ≤ w) :
    x.extractLsb' s m = BitVec.ofInt m (x.toInt / (2 ^ s : Nat)) := by
  rw [← Int.shiftRight_eq_div_pow, ← BitVec.toInt_sshiftRight, ← BitVec.signExtend,
    BitVec.signExtend_eq_setWidth_of_le _ (by omega)]
  refine BitVec.eq_of_getLsbD_eq fun i hi => ?_
  have hbit : s + i < w := by omega
  simp only [BitVec.getLsbD_extractLsb', BitVec.getLsbD_setWidth, BitVec.getLsbD_sshiftRight]
  simp [hi, hbit, show i < w by omega]

/-- The 64-bit product of two sign-extended patterns is exact (R86). -/
theorem toInt_signExtend_mul (a b : Word) :
    (a.signExtend 64 * b.signExtend 64).toInt = sint a * sint b := by
  have hhi : sint a * sint b ≤ 2 ^ 62 := BitVec.toInt_mul_toInt_le
  have hlo : -2 ^ 62 ≤ sint a * sint b := BitVec.le_toInt_mul_toInt
  rw [BitVec.toInt_mul, BitVec.toInt_signExtend_of_le (by omega),
    BitVec.toInt_signExtend_of_le (by omega), ← sint, ← sint]
  exact Int.bmod_eq_of_le (by norm_num at hlo ⊢; omega) (by norm_num at hhi ⊢; omega)

theorem fxMul_fst_eq_bits (a b : Word) :
    (fxMul a b).1 = (a.signExtend 64 * b.signExtend 64).extractLsb' 16 32 := by
  rw [extractLsb'_eq_ofInt _ (by omega), toInt_signExtend_mul]
  rfl

/-- Bits 63:47 of the 64-bit product, read as an integer. -/
theorem toInt_mul_topBits (a b : Word) :
    ((a.signExtend 64 * b.signExtend 64).extractLsb' 47 17).toInt =
      sint a * sint b / 140737488355328 := by
  have hhi : sint a * sint b ≤ 2 ^ 62 := BitVec.toInt_mul_toInt_le
  have hlo : -2 ^ 62 ≤ sint a * sint b := BitVec.le_toInt_mul_toInt
  rw [extractLsb'_eq_ofInt _ (by omega), toInt_signExtend_mul]
  exact BitVec.toInt_ofInt_eq_self (by omega) (by omega) (by omega)

/-- The floored product fits exactly when bits 63:47 read 0 or -1 (R86). -/
theorem fxMul_fits_iff_topBits (a b : Word) :
    (fxMul a b).2 = false ↔
      (a.signExtend 64 * b.signExtend 64).extractLsb' 47 17 = 0 ∨
      (a.signExtend 64 * b.signExtend 64).extractLsb' 47 17 = BitVec.allOnes 17 := by
  have hzero : (0 : BitVec 17).toInt = 0 := by decide
  have hones : (BitVec.allOnes 17).toInt = -1 := by decide
  rw [← BitVec.toInt_inj, ← BitVec.toInt_inj, toInt_mul_topBits, hzero, hones,
    ← Bool.not_eq_true, fxMul, wrapped_ovf_iff]
  omega

/-- Without overflow the value is within one ulp below the exact product (R86). -/
theorem fxMul_val_of_fits {a b : Word} (h : (fxMul a b).2 = false) :
    val a * val b - 1 / 65536 < val (fxMul a b).1 ∧ val (fxMul a b).1 ≤ val a * val b := by
  have hz : sint (fxMul a b).1 = sint a * sint b / 65536 := (wrapped_fits_iff _).mp h
  have hfloor : sint (fxMul a b).1 * 65536 ≤ sint a * sint b ∧
      sint a * sint b < sint (fxMul a b).1 * 65536 + 65536 := by omega
  obtain ⟨hle, hlt⟩ := hfloor
  have hle' : (sint (fxMul a b).1 : Rat) * 65536 ≤ sint a * sint b := by exact_mod_cast hle
  have hlt' : (sint a * sint b : Rat) < sint (fxMul a b).1 * 65536 + 65536 := by
    exact_mod_cast hlt
  simp only [val]
  constructor <;> linarith

theorem fxMul_comm (a b : Word) : fxMul a b = fxMul b a := by
  rw [fxMul, fxMul, mul_comm]

/-- Settles O8: dropping the 16 low bits of the exact 64-bit product is the floor. -/
theorem mulIsTheFlooredProduct : Obligations.MulIsTheFlooredProduct := by
  intro a b
  have hfloor : ⌊((sint a * sint b : Int) : Rat) / 65536⌋ = sint a * sint b / 65536 :=
    Rat.floor_intCast_div_natCast (sint a * sint b) 65536
  rw [hfloor]
  exact ⟨rfl, fxMul_fst_eq_bits a b, fxMul_fits_iff_topBits a b, fxMul_val_of_fits,
    fxMul_comm a b⟩

end Sys2Proof.Machine
end

section
/-! PROOFS. `shl` and the bits it loses (40_fixedpoint.md R87). -/

namespace Sys2Proof.Machine

theorem fxShl_eq_wrapped (a : Word) (n : Nat) : fxShl a n = wrapped (sint a * 2 ^ n) := by
  rw [fxShl, Nat.cast_pow, Nat.cast_ofNat]

/-- The result pattern of `shl` is the shifted pattern (R87). -/
theorem fxShl_fst (a : Word) (n : Nat) : (fxShl a n).1 = a <<< n := by
  have hpow : wrap32 (2 ^ n : Nat) = BitVec.twoPow 32 n := by
    apply BitVec.eq_of_toNat_eq
    rw [wrap32, BitVec.ofInt_natCast, BitVec.toNat_ofNat, BitVec.toNat_twoPow]
  rw [BitVec.shiftLeft_eq_mul_twoPow, ← hpow, wrap32, fxShl, wrapped, wrap32, BitVec.ofInt_mul,
    sint, BitVec.ofInt_toInt]

/-- An arithmetic right shift is the floored division by a power of two. -/
theorem sint_sshiftRight (a : Word) (k : Nat) : sint (a.sshiftRight k) = sint a / 2 ^ k := by
  rw [sint, sint, BitVec.toInt_sshiftRight, Int.shiftRight_eq_div_pow, Nat.cast_pow, Nat.cast_ofNat]

/-- The bits from `k` up all equal the sign bit exactly when an arithmetic shift by `k` leaves the
sign alone. -/
theorem topBits_agree_iff (a : Word) {k : Nat} (hk : k ≤ 31) :
    (∀ j, k ≤ j → j < 31 → a.getLsbD j = a.getLsbD 31) ↔ a.sshiftRight k = a.sshiftRight 31 := by
  have hmsb : a.msb = a.getLsbD 31 := BitVec.msb_eq_getLsbD_last a
  constructor
  · intro h
    refine BitVec.eq_of_getLsbD_eq fun i hi => ?_
    simp only [BitVec.getLsbD_sshiftRight, hmsb]
    grind
  · intro h j hkj hj
    have hbit := congrArg (BitVec.getLsbD · (j - k)) h
    simp only [BitVec.getLsbD_sshiftRight, hmsb, Nat.add_sub_cancel' hkj] at hbit
    grind

/-- An arithmetic shift by `k` leaves the sign alone exactly when the integer has `k + 1` bits. -/
theorem sshiftRight_eq_sign_iff (a : Word) {k : Nat} (hk : k ≤ 31) :
    a.sshiftRight k = a.sshiftRight 31 ↔ -2 ^ k ≤ sint a ∧ sint a < 2 ^ k := by
  have ha := sint_range a
  have hpos : (0 : Int) < 2 ^ k := by positivity
  have hle : (2 : Int) ^ k ≤ 2147483648 := by
    calc (2 : Int) ^ k ≤ 2 ^ 31 := pow_le_pow_right₀ (by norm_num) hk
      _ = 2147483648 := by norm_num
  rw [← sint_inj, sint_sshiftRight, sint_sshiftRight, Int.ediv_eq_iff_of_pos hpos]
  obtain hneg | hnonneg := lt_or_ge (sint a) 0
  · have hsign : sint a / 2 ^ 31 = -1 := by omega
    rw [hsign]
    omega
  · have hsign : sint a / 2 ^ 31 = 0 := by omega
    rw [hsign]
    omega

/-- `shl` by `n` does not overflow exactly when the operand has `32 - n` bits. -/
theorem fxShl_fits_iff (a : Word) {n : Nat} (hn : n < 32) :
    (fxShl a n).2 = false ↔ -2 ^ (31 - n) ≤ sint a ∧ sint a < 2 ^ (31 - n) := by
  have hpos : (0 : Int) < 2 ^ n := by positivity
  have hsplit : (2 : Int) ^ (31 - n) * 2 ^ n = 2147483648 := by
    rw [← pow_add, Nat.sub_add_cancel (by omega)]
    norm_num
  rw [← mul_le_mul_iff_left₀ hpos, ← mul_lt_mul_iff_left₀ hpos, neg_mul, hsplit,
    ← Bool.not_eq_true, fxShl_eq_wrapped, wrapped_ovf_iff]
  omega

/-- `shl` by `n` overflows exactly when the `n + 1` top bits are not all equal (R87). -/
theorem fxShl_ovf_iff (a : Word) {n : Nat} (hn : n < 32) :
    (fxShl a n).2 = true ↔ ∃ j, 31 - n ≤ j ∧ j < 31 ∧ a.getLsbD j ≠ a.getLsbD 31 := by
  have hagree := (fxShl_fits_iff a hn).trans ((sshiftRight_eq_sign_iff a (by omega)).symm.trans
    (topBits_agree_iff a (by omega)).symm)
  rw [← Bool.not_eq_false, hagree]
  push Not
  rfl

theorem fxShl_val_of_fits {a : Word} {n : Nat} (h : (fxShl a n).2 = false) :
    val (fxShl a n).1 = val a * 2 ^ n := by
  rw [fxShl_eq_wrapped] at h ⊢
  rw [val, (wrapped_fits_iff _).mp h, val]
  push_cast
  ring

theorem fxShl_zero (a : Word) : fxShl a 0 = (a, false) := by
  rw [fxShl_eq_wrapped, pow_zero, mul_one, wrapped_sint]

theorem decodeFormatN_ne_shl (op n : Nat) : decodeFormatN op ≠ some (.shl n) := by
  unfold decodeFormatN
  split <;> simp

/-- The shift amount of a decoded SHL is the five bits of `imm5` (R62). -/
theorem decode_shl_amount_lt {w : Word} {n : Nat} (h : decode w = .ok (.shl n)) : n < 32 := by
  simp only [decode] at h
  split_ifs at h with hzero hshl hone himm
  · cases h
    exact (imm5Field w).isLt
  · cases h
  · split at h
    next i hi => cases h; exact absurd hi (decodeFormatN_ne_shl _ n)
    next => cases h

/-- Settles O9: the operand fits in `32 - n` bits exactly when its `n + 1` top bits agree. -/
theorem shlShiftsThePattern : Obligations.ShlShiftsThePattern := by
  refine ⟨fun a n hn => ⟨?_, fxShl_fst a n, fxShl_ovf_iff a hn, fxShl_val_of_fits⟩, fxShl_zero,
    fun _ _ => decode_shl_amount_lt⟩
  rw [fxShl_eq_wrapped, wrapped]

end Sys2Proof.Machine
end

section
/-! PROOFS. Comparison and `onehot` (40_fixedpoint.md R89, R96). -/

namespace Sys2Proof.Machine

/-! Comparison (R89) -/

theorem fxGt_iff (a b : Word) : fxGt a b = true ↔ sint a > sint b := decide_eq_true_iff

/-- The scale is common, so the order of the values is that of the patterns (R89). -/
theorem val_lt_val_iff (a b : Word) : val a < val b ↔ sint a < sint b := by
  rw [val, val, div_lt_div_iff_of_pos_right (by norm_num), Int.cast_lt]

/-- The three outcomes follow the trichotomy of the signed order. -/
theorem fxCmp3_cases (a b : Word) :
    fxCmp3 a b = (true, false, false) ∨ fxCmp3 a b = (false, true, false) ∨
      fxCmp3 a b = (false, false, true) := by
  simp only [fxCmp3, ← sint_inj]
  obtain hlt | heq | hgt := lt_trichotomy (sint a) (sint b)
  · exact .inl (by simp [hlt, hlt.ne, hlt.le])
  · exact .inr (.inl (by simp [heq]))
  · exact .inr (.inr (by simp [hgt, hgt.ne', hgt.le]))

/-- Settles O10: the comparisons are those of the signed readings, of which exactly one holds. -/
theorem comparisonIsSigned : Obligations.ComparisonIsSigned := by
  refine ⟨fun a b => ⟨fxGt_iff a b, ?_, decide_eq_true_iff, decide_eq_true_iff, rfl,
    fxCmp3_cases a b⟩, by decide⟩
  exact (fxGt_iff a b).trans (val_lt_val_iff b a).symm

/-! `onehot` (R96) -/

theorem fxOnehot_toNat {n : Nat} (hn : n < 32) : (fxOnehot n).toNat = 2 ^ n := by
  rw [fxOnehot, BitVec.toNat_ofNat, Nat.mod_eq_of_lt (Nat.pow_lt_pow_right (by omega) hn)]

theorem fxOnehot_getLsbD {n : Nat} (hn : n < 32) (j : Nat) :
    (fxOnehot n).getLsbD j = true ↔ j = n := by
  rw [fxOnehot, BitVec.getLsbD_ofNat, Nat.testBit_two_pow, Bool.and_eq_true, decide_eq_true_iff,
    decide_eq_true_iff]
  omega

/-- Below bit 31 the one bit is a positive power of two. -/
theorem sint_fxOnehot {n : Nat} (hn : n ≤ 30) : sint (fxOnehot n) = 2 ^ n := by
  have hnat : (fxOnehot n).toNat = 2 ^ n := fxOnehot_toNat (by omega)
  have hsmall : 2 ^ n < 2 ^ 31 := Nat.pow_lt_pow_right (by omega) (by omega)
  rw [sint, BitVec.toInt_eq_toNat_of_lt (by omega), hnat, Nat.cast_pow, Nat.cast_ofNat]

/-- Settles O11: bit 31 is the sign, so its weight alone is negative. -/
theorem onehotIsOneBit : Obligations.OnehotIsOneBit := by
  intro n hn
  refine ⟨fxOnehot_toNat hn, fxOnehot_getLsbD hn, fun h => ?_, fun h => ?_⟩
  · rw [val, sint_fxOnehot h, Int.cast_pow, Int.cast_ofNat]
  · have hsign : sint (fxOnehot 31) = -2147483648 := sint_mostNegative
    rw [h, val, hsign]
    norm_num

end Sys2Proof.Machine
end

section
/-! PROOFS. The arithmetic laws (40_fixedpoint.md R97, items 1 to 5). -/

namespace Sys2Proof.Machine

/-! Multiplication by a constant -/

/-- An exact product that is a multiple of 2^16 loses nothing to the floor. -/
theorem fxMul_of_sint_eq {a b : Word} {z : Int} (h : sint a * sint b = z * 65536) :
    fxMul a b = wrapped z := by
  rw [fxMul, h, Int.mul_ediv_cancel _ (by norm_num)]

theorem fxMul_one (a : Word) : fxMul a one = (a, false) := by
  have hone : sint one = 65536 := by decide
  rw [fxMul_of_sint_eq (z := sint a) (by rw [hone]), wrapped_sint]

theorem fxMul_zero (a : Word) : fxMul a 0 = (0, false) := by
  rw [fxMul_of_sint_eq (z := sint 0) (by simp), wrapped_sint]

/-- Times -1.0 is `neg`, with its overflow bit (R97). -/
theorem fxMul_minusOne (a : Word) : fxMul a 0xFFFF0000#32 = fxNeg a := by
  have hminus : sint 0xFFFF0000#32 = -65536 := by decide
  rw [fxNeg_eq_wrapped]
  exact fxMul_of_sint_eq (by rw [hminus]; ring)

/-- Times 2^j is `shl` by `j`, with its overflow bit (R97). -/
theorem fxMul_fxOnehot_add (a : Word) {j : Nat} (hj : j ≤ 14) :
    fxMul a (fxOnehot (16 + j)) = fxShl a j := by
  rw [fxShl_eq_wrapped]
  exact fxMul_of_sint_eq (by rw [sint_fxOnehot (by omega), pow_add]; ring)

/-- Times 2^-j is the arithmetic right shift by `j`, which always fits (R97). -/
theorem fxMul_fxOnehot_sub (a : Word) {j : Nat} (hj : j ≤ 16) :
    fxMul a (fxOnehot (16 - j)) = (a.sshiftRight j, false) := by
  have hsplit : (65536 : Int) = 2 ^ j * 2 ^ (16 - j) := by
    rw [← pow_add, Nat.add_sub_cancel' hj]
    norm_num
  have hshift : sint a * 2 ^ (16 - j) / 65536 = sint (a.sshiftRight j) := by
    rw [hsplit, Int.mul_ediv_mul_of_pos_left _ _ (by positivity), sint_sshiftRight]
  rw [fxMul, sint_fxOnehot (by omega), hshift, wrapped_sint]

/-! Result patterns as arithmetic modulo 2^32 on `uint` (R97, item 1) -/

theorem fxAdd_toNat (a b : Word) : (fxAdd a b).1.toNat = (a.toNat + b.toNat) % 2 ^ 32 := by
  rw [fxAdd_fst, BitVec.toNat_add]

theorem fxSub_toNat (a b : Word) :
    ((fxSub a b).1.toNat : Int) = ((a.toNat : Int) - b.toNat) % 2 ^ 32 := by
  rw [fxSub_fst, BitVec.toNat_sub]
  omega

theorem fxShl_toNat (a : Word) (n : Nat) :
    (fxShl a n).1.toNat = a.toNat * 2 ^ n % 2 ^ 32 := by
  rw [fxShl_fst, BitVec.toNat_shiftLeft, Nat.shiftLeft_eq]

/-- Pattern-wise `add` is commutative and associative with identity ZERO, and `sub` adds the
negation (R97, item 2). -/
theorem fxAdd_group_laws (a b c : Word) :
    (fxAdd a b).1 = (fxAdd b a).1 ∧
    (fxAdd (fxAdd a b).1 c).1 = (fxAdd a (fxAdd b c).1).1 ∧ (fxAdd a 0).1 = a ∧
    (fxSub a b).1 = (fxAdd a (fxNeg b).1).1 := by
  simp only [fxAdd_fst, fxSub_fst, fxNeg_fst]
  exact ⟨add_comm a b, add_assoc a b c, add_zero a, sub_eq_add_neg a b⟩

/-- One ulp times 0.5 floors to 0, one ulp times (0.5 times 2.0) does not. -/
theorem fxMul_not_assoc :
    ∃ a b c : Word, (fxMul (fxMul a b).1 c).1 ≠ (fxMul a (fxMul b c).1).1 :=
  ⟨0x00000001#32, 0x00008000#32, 0x00020000#32, by decide⟩

/-- 0.5 times two ulp is one ulp, 0.5 times one ulp floors to 0 on either side of the sum. -/
theorem fxMul_not_distrib :
    ∃ a b c : Word, (fxMul a (fxAdd b c).1).1 ≠ (fxAdd (fxMul a b).1 (fxMul a c).1).1 :=
  ⟨0x00008000#32, 0x00000001#32, 0x00000001#32, by decide⟩

/-- Settles O12: each law by name; the two laws that fail have their operands above. -/
theorem arithmeticLaws : Obligations.ArithmeticLaws := by
  refine ⟨fun a b => ⟨fxAdd_toNat a b, fxSub_toNat a b⟩, fun a n _ => fxShl_toNat a n,
    fxAdd_group_laws, fxMul_comm, fxMul_not_assoc, fxMul_not_distrib,
    fun a => ⟨fxMul_one a, fxMul_zero a, ?_, ?_⟩, fun a _ => fxMul_fxOnehot_add a,
    fun a _ _ => fxMul_fxOnehot_sub a⟩
  · rw [fxMul_minusOne]
  · rw [fxMul_minusOne]
    exact fxNeg_ovf_iff a

end Sys2Proof.Machine
end

section
/-! PROOFS. The exponent scan, the seed and the domain of the reciprocal approximator
(41_reciprocal.md R110 to R116). -/

namespace Sys2Proof.Machine

/-! The scan loop (R110) -/

theorem scanFrom_stop {d : Word} {r : ScanResult} (h : fxGt r.p d = true) (left : Nat) :
    scanFrom d left r = r := by
  cases left with
  | zero => rfl
  | succ left => rw [scanFrom, if_pos h]

theorem scanFrom_shift {d : Word} {r : ScanResult} (h : fxGt r.p d = false) (left : Nat) :
    scanFrom d (left + 1) r =
      scanFrom d left
        { k := r.k + 1, p := (fxShl r.p 1).1, ovf := r.ovf || (fxShl r.p 1).2 } := by
  rw [scanFrom, if_neg (Bool.not_eq_true _ ▸ h)]

theorem not_fxGt_iff (a b : Word) : fxGt a b = false ↔ sint a ≤ sint b := by
  rw [← Bool.not_eq_true, fxGt_iff, gt_iff_lt, not_lt]

/-- Below bit 30 a shift by one moves the one bit up without overflow. -/
theorem fxShl_one_fxOnehot {n : Nat} (hn : n ≤ 29) :
    fxShl (fxOnehot n) 1 = (fxOnehot (n + 1), false) := by
  rw [fxShl_eq_wrapped, sint_fxOnehot (by omega), ← pow_add, ← sint_fxOnehot (by omega),
    wrapped_sint]

/-- The scan after `j` shifts, none of which has overflowed: the running power is 2^j. -/
def scannedTo (j : Nat) : ScanResult := { k := j, p := fxOnehot (16 + j), ovf := false }

@[simp] theorem scannedTo_k (j : Nat) : (scannedTo j).k = j := rfl

@[simp] theorem scannedTo_p (j : Nat) : (scannedTo j).p = fxOnehot (16 + j) := rfl

theorem scan_eq_scanFrom_start (d : Word) : scan d = scanFrom d 16 (scannedTo 0) := rfl

theorem scanFrom_scannedTo_shift {d : Word} {j : Nat} (hj : j ≤ 13)
    (h : (2 : Int) ^ (16 + j) ≤ sint d) (left : Nat) :
    scanFrom d (left + 1) (scannedTo j) = scanFrom d left (scannedTo (j + 1)) := by
  have hgt : fxGt (scannedTo j).p d = false := by
    rwa [not_fxGt_iff, scannedTo_p, sint_fxOnehot (by omega)]
  rw [scanFrom_shift hgt, scannedTo_p, fxShl_one_fxOnehot (by omega)]
  rfl

/-- As long as no running power has exceeded `d`, the scan goes on, up to 14 shifts. -/
theorem scan_climbs {d : Word} {j : Nat} (hj : j ≤ 14)
    (h : ∀ i < j, (2 : Int) ^ (16 + i) ≤ sint d) :
    scan d = scanFrom d (16 - j) (scannedTo j) := by
  induction j with
  | zero => exact scan_eq_scanFrom_start d
  | succ j ih =>
    have hleft : 16 - j = 16 - (j + 1) + 1 := by omega
    rw [ih (by omega) fun i hi => h i (by omega), hleft,
      scanFrom_scannedTo_shift (by omega) (h j (by omega))]

/-- The scan ends at the first power of two above `d`. -/
theorem scan_of_first_above {d : Word} {j : Nat} (hj : j ≤ 14)
    (hbelow : ∀ i < j, (2 : Int) ^ (16 + i) ≤ sint d) (habove : sint d < (2 : Int) ^ (16 + j)) :
    scan d = scannedTo j := by
  have hgt : fxGt (scannedTo j).p d = true := by
    rwa [fxGt_iff, scannedTo_p, sint_fxOnehot (by omega)]
  rw [scan_climbs hj hbelow, scanFrom_stop hgt]

theorem two_pow_le_of_le {i j : Nat} {z : Int} (hij : i ≤ j) (h : (2 : Int) ^ j ≤ z) :
    (2 : Int) ^ i ≤ z :=
  (pow_le_pow_right₀ (by norm_num) hij).trans h

theorem fxShl_one_bit30 : fxShl 0x40000000#32 1 = (0x80000000#32, true) := by decide

theorem fxShl_one_bit31 : fxShl 0x80000000#32 1 = (0, true) := by decide

/-- From 16384.0 on no running power exceeds `d`: 2^14 is still too small, the 15th shift makes the
power negative and the 16th makes it 0. -/
theorem scan_of_ge_bound {d : Word} (h : 0x40000000 ≤ sint d) :
    scan d = { k := 16, p := 0, ovf := true } := by
  have hbelow : ∀ i < 14, (2 : Int) ^ (16 + i) ≤ sint d := fun i hi =>
    two_pow_le_of_le (j := 30) (by omega) h
  have hbit30 : fxGt 0x40000000#32 d = false := (not_fxGt_iff _ _).mpr h
  have hbit31 : fxGt 0x80000000#32 d = false := by
    rw [not_fxGt_iff, sint_mostNegative]
    omega
  calc scan d
      = scanFrom d 2 { k := 14, p := 0x40000000#32, ovf := false } := scan_climbs le_rfl hbelow
    _ = scanFrom d 1 { k := 15, p := 0x80000000#32, ovf := true } := by
        rw [scanFrom_shift hbit30, fxShl_one_bit30]
        rfl
    _ = { k := 16, p := 0, ovf := true } := by
        rw [scanFrom_shift hbit31, fxShl_one_bit31]
        rfl

/-- What the scan can leave (R115): a power of two above `d` after at most 14 shifts, or the bound
reached. -/
theorem scan_cases (d : Word) :
    (∃ j ≤ 14, sint d < (2 : Int) ^ (16 + j) ∧ scan d = scannedTo j) ∨
    (0x40000000 ≤ sint d ∧ scan d = { k := 16, p := 0, ovf := true }) := by
  obtain hlt | hge := lt_or_ge (sint d) 0x40000000
  · have hex : ∃ j : Nat, sint d < (2 : Int) ^ (16 + j) := ⟨14, hlt⟩
    have hj : Nat.find hex ≤ 14 := Nat.find_min' hex hlt
    have hbelow : ∀ i < Nat.find hex, (2 : Int) ^ (16 + i) ≤ sint d := fun i hi =>
      not_lt.mp (Nat.find_min hex hi)
    exact .inl ⟨_, hj, Nat.find_spec hex, scan_of_first_above hj hbelow (Nat.find_spec hex)⟩
  · exact .inr ⟨hge, scan_of_ge_bound hge⟩

/-- The scan stops by 14 shifts or runs to its bound of 16 (R115). -/
theorem scan_k_range (d : Word) : (scan d).k ≤ 16 ∧ (scan d).k ≠ 15 := by
  obtain ⟨j, hj, -, hscan⟩ | ⟨-, hscan⟩ := scan_cases d
  · rw [hscan, scannedTo_k]
    omega
  · rw [hscan]
    decide

/-- Settles O20: each row is the scan up to the first power of two above `d`, or up to the bound. -/
theorem scanClosedForm : Obligations.ScanClosedForm := by
  refine ⟨fun d => ⟨fun h => ?belowOne, fun j hlo hhi hle hlt => ?inRange, scan_of_ge_bound,
    (scan_k_range d).2⟩, fun n hlo hhi => ?shifts, by decide, by decide, fxShl_one_bit30,
    fxShl_one_bit31⟩
  case belowOne => exact scan_of_first_above (j := 0) (by omega) (by simp) h
  case inRange =>
    exact scan_of_first_above hhi (fun i hi => two_pow_le_of_le (by omega) hle) hlt
  case shifts =>
    have hnext : 16 + n = 15 + n + 1 := by omega
    rw [hnext, fxShl_one_fxOnehot (by omega)]

/-! The seed (R111) -/

theorem val_seedOf {k : Nat} (hk : k ≤ 16) : val (seedOf k) * 2 ^ k = 1 := by
  calc val (seedOf k) * 2 ^ k
      = 2 ^ (16 - k) / 65536 * 2 ^ k := by
        rw [seedOf, val, sint_fxOnehot (by omega), Int.cast_pow, Int.cast_ofNat]
    _ = 2 ^ (16 - k + k) / 65536 := by rw [pow_add]; ring
    _ = 1 := by rw [Nat.sub_add_cancel hk]; norm_num

/-- Settles O21: `recip` builds the seed from the scan's count, which is at most 16. -/
theorem seedIsTheBitAtSixteenMinusK : Obligations.SeedIsTheBitAtSixteenMinusK := by
  refine ⟨fun k hk => ⟨rfl, val_seedOf hk⟩, fun d => ?_⟩
  obtain ⟨hle, hne⟩ := scan_k_range d
  exact ⟨hle, hne, rfl⟩

/-! The domain (R113) -/

/-- The scan ends without exceeding `d` exactly from 16384.0 on. -/
theorem not_fxGt_scan_iff (d : Word) : fxGt (scan d).p d = false ↔ 0x40000000 ≤ sint d := by
  obtain ⟨j, hj, hlt, hscan⟩ | ⟨hge, hscan⟩ := scan_cases d
  · have hbound : ¬ 0x40000000 ≤ sint d := fun hge =>
      not_le.mpr hlt (two_pow_le_of_le (j := 30) (by omega) hge)
    rw [iff_false_right hbound, hscan, scannedTo_p, Bool.not_eq_false, fxGt_iff,
      sint_fxOnehot (by omega)]
    exact hlt
  · rw [iff_true_right hge, hscan, not_fxGt_iff]
    exact le_trans (by decide) hge

theorem recip_ood_iff (d : Word) :
    (recip d).ood = true ↔ sint d ≤ 0 ∨ fxGt (scan d).p d = false := by
  simp [recip]

/-- Settles O22: the two ways out of the domain are its two ends; `recip` computes the rest without
the domain test. -/
theorem oodIsOutsideTheDomain : Obligations.OodIsOutsideTheDomain := by
  intro d
  refine ⟨?_, recip_ood_iff d, rfl, rfl, rfl⟩
  rw [recip_ood_iff, not_fxGt_scan_iff]
  omega

end Sys2Proof.Machine
end

section
/-! PROOFS. The tree reduction of the accumulator (42_accumulator.md R132). -/

namespace Sys2Proof.Machine

/-- The seven wrapped adds are one wrapping of the exact sum: `wrap32` carries sums to sums, so
neither the pairing nor the order matters. -/
theorem tree8_fst_eq_wrap32_sum (v : Vector Word 8) :
    (tree8 v).1 = wrap32 (∑ i : Fin 8, sint v[i]) := by
  have hsum : wrap32 (∑ i : Fin 8, sint v[i]) =
      v[0] + v[1] + v[2] + v[3] + v[4] + v[5] + v[6] + v[7] := by
    rw [Fin.sum_univ_eight]
    simp only [← wrap32_add, wrap32_sint]
    rfl
  rw [hsum, tree8_fst]
  ac_rfl

theorem tree8_fst_perm (v : Vector Word 8) (π : Equiv.Perm (Fin 8)) :
    (tree8 (perLane fun i => v[π i])).1 = (tree8 v).1 := by
  have hsum : ∑ i : Fin 8, sint (perLane fun i => v[π i])[i] = ∑ i : Fin 8, sint v[i] := by
    simp only [perLane_get]
    exact Equiv.sum_comp π fun i => sint v[i]
  rw [tree8_fst_eq_wrap32_sum, tree8_fst_eq_wrap32_sum v, hsum]

/-- R132's example: the pair sums `s6` and `s4` leave the range, the total is 0. -/
theorem tree8_equal_values_paired :
    tree8 #v[0, 0, 0, 0, 0xC0000000#32, 0xC0000000#32, 0x40000000#32, 0x40000000#32] =
      (0, true) := by decide

/-- The same eight values with opposite ones paired: no partial sum leaves the range. -/
theorem tree8_opposite_values_paired :
    tree8 #v[0, 0, 0, 0, 0xC0000000#32, 0x40000000#32, 0xC0000000#32, 0x40000000#32] =
      (0, false) := by decide

/-- Two orders of the same eight values with different overflow bits: elements 5 and 6
exchanged. -/
theorem tree8_ovf_depends_on_order :
    ∃ (v : Vector Word 8) (π : Equiv.Perm (Fin 8)),
      (tree8 v).2 = true ∧ (tree8 (perLane fun i => v[π i])).2 = false ∧ (tree8 v).1 = 0 := by
  refine ⟨#v[0, 0, 0, 0, 0xC0000000#32, 0xC0000000#32, 0x40000000#32, 0x40000000#32],
    Equiv.swap 5 6, ?overflows, ?fits, ?total⟩
  case overflows => rw [tree8_equal_values_paired]
  case fits => exact congrArg Prod.snd tree8_opposite_values_paired
  case total => rw [tree8_equal_values_paired]

/-- Settles O26: the total is a wrapped exact sum, which no permutation changes; R132's example
shows that the overflow bit can change. -/
theorem treeSumsInAnyOrder : Obligations.TreeSumsInAnyOrder :=
  ⟨tree8_fst_eq_wrap32_sum, tree8_fst_perm, tree8_ovf_depends_on_order⟩

end Sys2Proof.Machine
end

section
/-! PROOFS. The decoder and the encoder (30_encoding.md R61 to R66). -/

namespace Sys2Proof.Machine

/-! The three fields of a word (R61) -/

theorem opcodeField_toNat (w : Word) : (opcodeField w).toNat = w.toNat % 256 := by
  simp [opcodeField, BitVec.extractLsb'_toNat]

theorem imm5Field_toNat (w : Word) : (imm5Field w).toNat = w.toNat / 256 % 32 := by
  simp [imm5Field, BitVec.extractLsb'_toNat, Nat.shiftRight_eq_div_pow]

theorem zeroField_eq_zero_iff (w : Word) : zeroField w = 0 ↔ w.toNat < 2 ^ 13 := by
  have hw := w.isLt
  have hzero : (0 : BitVec 19).toNat = 0 := rfl
  rw [← BitVec.toNat_inj, zeroField, BitVec.extractLsb'_toNat, Nat.shiftRight_eq_div_pow, hzero]
  omega

/-- A word is its three fields, laid out as R61 says. -/
theorem word_eq_layout (w : Word) :
    (zeroField w ++ imm5Field w) ++ opcodeField w = w := by
  refine BitVec.eq_of_getLsbD_eq fun j hj => ?_
  simp only [BitVec.getLsbD_append, zeroField, imm5Field, opcodeField,
    BitVec.getLsbD_extractLsb']
  grind

/-! Decoding by the fields (R63, R65) -/

/-- The row of format N that `op` selects: a command without immediate. -/
theorem decodeFormatN_eq_some {op : Nat} {i : Instr} (h : decodeFormatN op = some i) :
    op = i.opcode.toNat ∧ i.immediate = 0 := by
  unfold decodeFormatN at h
  split at h <;> cases h <;> exact ⟨rfl, rfl⟩

/-- A word decodes to a command exactly when its fields are that command's (R61, R63). -/
theorem decode_eq_ok_iff (w : Word) (i : Instr) :
    decode w = .ok i ↔
      zeroField w = 0 ∧ opcodeField w = i.opcode ∧ (imm5Field w).toNat = i.immediate := by
  constructor
  · intro h
    simp only [decode] at h
    split_ifs at h with hzero hshl hone himm
    · cases h
      exact ⟨not_not.mp hzero, BitVec.eq_of_toNat_eq hshl, rfl⟩
    · cases h
      exact ⟨not_not.mp hzero, BitVec.eq_of_toNat_eq hone, rfl⟩
    · split at h
      next hrow =>
        cases h
        obtain ⟨hop, himm0⟩ := decodeFormatN_eq_some hrow
        exact ⟨not_not.mp hzero, BitVec.eq_of_toNat_eq hop, (not_not.mp himm).trans himm0.symm⟩
      next => cases h
  · rintro ⟨hzero, hop, himm⟩
    simp only [decode, hzero, hop, himm]
    cases i <;> rfl

/-- `R61`'s layout holds of every command's word: the architect's per-command facts together. -/
theorem encode_fields (i : Instr) : Laws.EncodedFields.Statement i := by
  cases i with
  | nop => exact Laws.EncodedFields.nop
  | add => exact Laws.EncodedFields.add
  | sub => exact Laws.EncodedFields.sub
  | mul => exact Laws.EncodedFields.mul
  | shl n => exact Laws.EncodedFields.shl n
  | cmp => exact Laws.EncodedFields.cmp
  | onehot n => exact Laws.EncodedFields.onehot n
  | recip => exact Laws.EncodedFields.recip
  | acc => exact Laws.EncodedFields.acc
  | coef => exact Laws.EncodedFields.coef
  | predict => exact Laws.EncodedFields.predict
  | fit => exact Laws.EncodedFields.fit

/-- Settles O1: the word's fields are the command's, and decoding looks at nothing else. -/
theorem decodeOfEncodeIsTheInstruction : Obligations.DecodeOfEncodeIsTheInstruction := by
  intro i hwf
  obtain ⟨hop, hzero, himm⟩ := encode_fields i
  exact (decode_eq_ok_iff _ _).mpr ⟨hzero, hop, himm hwf⟩

/-! Encoding what was decoded (R65) -/

theorem wellFormed_of_immediate_lt {i : Instr} (h : i.immediate < 32) : i.wellFormed = true := by
  cases i with
  | shl n => exact decide_eq_true h
  | onehot n => exact decide_eq_true h
  | _ => rfl

/-- A decoded command has an immediate of five bits, so a word can express it (R62). -/
theorem wellFormed_of_decode {w : Word} {i : Instr} (h : decode w = .ok i) :
    i.wellFormed = true := by
  obtain ⟨-, -, himm⟩ := (decode_eq_ok_iff w i).mp h
  exact wellFormed_of_immediate_lt (himm ▸ (imm5Field w).isLt)

theorem encode_of_decode {w : Word} {i : Instr} (h : decode w = .ok i) : encode i = w := by
  obtain ⟨hzero, hop, himm⟩ := (decode_eq_ok_iff w i).mp h
  calc encode i
      = (zeroField w ++ imm5Field w) ++ opcodeField w := by
        rw [encode, ← himm, ← hop, hzero, BitVec.ofNat_toNat, BitVec.setWidth_eq]
        rfl
    _ = w := word_eq_layout w

/-- Settles O2: the fields of a word are the whole of it. -/
theorem encodeOfDecodeIsTheWord : Obligations.EncodeOfDecodeIsTheWord :=
  ⟨fun _ _ h => ⟨wellFormed_of_decode h, encode_of_decode h⟩,
    fun _ _ _ h h' => (encode_of_decode h).symm.trans (encode_of_decode h')⟩

/-! The legal words (R65) -/

/-- The commands of format N (R63). -/
def formatN : List Instr :=
  [.nop, .add, .sub, .mul, .cmp, .recip, .acc, .coef, .predict, .fit]

/-- The commands that a word can express (R62, R63). -/
def legalInstrs : List Instr :=
  formatN ++ (List.range 32).map .shl ++ (List.range 32).map .onehot

theorem mem_legalInstrs_iff (i : Instr) : i ∈ legalInstrs ↔ i.wellFormed = true := by
  cases i <;> simp [legalInstrs, formatN, Instr.wellFormed, immediateFits]

/-- The words of the well-formed commands are exactly the words that decode. -/
theorem mem_map_encode_iff (w : Word) :
    w ∈ legalInstrs.map encode ↔ ∃ i, decode w = .ok i := by
  simp only [List.mem_map, mem_legalInstrs_iff]
  constructor
  · rintro ⟨i, hwf, rfl⟩
    exact ⟨i, decodeOfEncodeIsTheInstruction i hwf⟩
  · rintro ⟨i, h⟩
    exact ⟨i, wellFormed_of_decode h, encode_of_decode h⟩

/-- The word of a command as a number: the opcode, and the immediate from bit 8 on (R61). -/
theorem encode_toNat {i : Instr} (h : i.wellFormed = true) :
    (encode i).toNat = i.opcode.toNat + i.immediate * 256 := by
  obtain ⟨hop, hzero, himm⟩ := encode_fields i
  have hop' := congrArg BitVec.toNat hop
  have himm' := himm h
  rw [opcodeField_toNat] at hop'
  rw [imm5Field_toNat] at himm'
  rw [zeroField_eq_zero_iff] at hzero
  omega

theorem encode_eq_iff_toNat {i : Instr} (h : i.wellFormed = true) (w : Word) :
    encode i = w ↔ w.toNat = i.opcode.toNat + i.immediate * 256 := by
  rw [← BitVec.toNat_inj, encode_toNat h, eq_comm]

/-- The legal words as the map writes them out (R65). -/
theorem mem_map_encode_iff_map (w : Word) :
    w ∈ legalInstrs.map encode ↔
      w ∈ [0x00#32, 0x01#32, 0x02#32, 0x03#32, 0x05#32, 0x10#32, 0x11#32, 0x12#32, 0x13#32,
        0x14#32] ∨
      ∃ n < 32, w.toNat = 0x04 + n * 256 ∨ w.toNat = 0x06 + n * 256 := by
  have hN : formatN.map encode =
      [0x00#32, 0x01#32, 0x02#32, 0x03#32, 0x05#32, 0x10#32, 0x11#32, 0x12#32, 0x13#32,
        0x14#32] := by decide
  have hshl : w ∈ ((List.range 32).map Instr.shl).map encode ↔
      ∃ n < 32, w.toNat = 0x04 + n * 256 := by
    simp only [List.map_map, List.mem_map, List.mem_range, Function.comp_apply]
    exact exists_congr fun n => and_congr_right fun hn =>
      encode_eq_iff_toNat (i := .shl n) (decide_eq_true hn) w
  have hone : w ∈ ((List.range 32).map Instr.onehot).map encode ↔
      ∃ n < 32, w.toNat = 0x06 + n * 256 := by
    simp only [List.map_map, List.mem_map, List.mem_range, Function.comp_apply]
    exact exists_congr fun n => and_congr_right fun hn =>
      encode_eq_iff_toNat (i := .onehot n) (decide_eq_true hn) w
  rw [legalInstrs, List.map_append, List.map_append, List.mem_append, List.mem_append, hN, hshl,
    hone, or_assoc]
  simp only [and_or_left, exists_or]

/-- No two well-formed commands share a word: decoding tells them apart. -/
theorem encode_inj_on_legalInstrs : (legalInstrs.map encode).Nodup := by
  have hnodup : legalInstrs.Nodup := by decide
  refine List.Nodup.map_on (fun i hi j hj hij => ?_) hnodup
  have hi' := decodeOfEncodeIsTheInstruction i ((mem_legalInstrs_iff i).mp hi)
  have hj' := decodeOfEncodeIsTheInstruction j ((mem_legalInstrs_iff j).mp hj)
  rw [hij, hj'] at hi'
  injection hi' with hji
  exact hji.symm

/-- Settles O3: the words of the 10 + 32 + 32 well-formed commands. -/
theorem seventyFourLegalWords : Obligations.SeventyFourLegalWords :=
  ⟨legalInstrs.map encode, by decide, encode_inj_on_legalInstrs, mem_map_encode_iff,
    mem_map_encode_iff_map⟩

/-- Settles O4: ten fixed words, each evaluated. -/
theorem wordsOfTheMapDecode : Obligations.WordsOfTheMapDecode := by
  unfold Obligations.WordsOfTheMapDecode
  decide

/-! The illegal words (R66) -/

theorem exists_error_iff_not_ok (w : Word) :
    (∃ e, decode w = .error e) ↔ ¬ ∃ i, decode w = .ok i := by
  cases h : decode w with
  | ok i => simp
  | error e => simp

/-- The opcodes that the map assigns (R63). -/
def assignedOpcodes : List Nat :=
  [0x00, 0x01, 0x02, 0x03, 0x04, 0x05, 0x06, 0x10, 0x11, 0x12, 0x13, 0x14]

/-- The legal words by their fields read as numbers (R63, R65). -/
theorem exists_decode_ok_iff (w : Word) :
    (∃ i, decode w = .ok i) ↔
      w.toNat < 2 ^ 13 ∧
      w.toNat % 256 ∈ assignedOpcodes ∧
      (w.toNat % 256 ∈ [0x04, 0x06] ∨ w.toNat / 256 % 32 = 0) := by
  rw [← mem_map_encode_iff, mem_map_encode_iff_map]
  have hw := w.isLt
  simp only [assignedOpcodes, List.mem_cons, List.not_mem_nil, or_false, ← BitVec.toNat_inj,
    BitVec.toNat_ofNat]
  constructor
  · rintro (h | ⟨n, hn, h⟩) <;> omega
  · rintro ⟨hlt, hop, himm⟩
    by_cases hI : w.toNat % 256 = 4 ∨ w.toNat % 256 = 6
    · exact .inr ⟨w.toNat / 256, by omega, by omega⟩
    · exact .inl (by omega)

/-- Exactly the words of R66 are illegal. -/
theorem exists_decode_error_iff (w : Word) :
    (∃ e, decode w = .error e) ↔
      w.toNat ≥ 2 ^ 13 ∨
      w.toNat % 256 ∉ assignedOpcodes ∨
      (w.toNat % 256 ∉ [0x04, 0x06] ∧ w.toNat / 256 % 32 ≠ 0) := by
  rw [exists_error_iff_not_ok, exists_decode_ok_iff, not_and_or, not_and_or, not_or,
    not_lt]

end Sys2Proof.Machine
end

section
/-! PROOFS. What the completion of a command, or of an illegal word, leaves: its registers, its
flags and the reserved bits of `STATUS` (20_memory.md R45, 10_state.md R18, R20, R21). -/

namespace Sys2Proof.Machine

/-! The shape of a completion -/

/-- Every command completes with the registers and the flags of its row, whatever their values
(R18, R26, R45). -/
theorem exec_complete (i : Instr) (s : State) :
    ∃ ws fs, exec i s = .next (s.complete ws fs) ∧
      ws.map Prod.fst = writesOf i ∧ fs.map Prod.fst = flagsOf i := by
  obtain ⟨e, hexec, -, hwrites, hflags⟩ := exec_effect i s
  cases hs : s.specified e.reads with
  | true => exact ⟨_, _, hexec.trans (finish_specified hs), hwrites, hflags⟩
  | false =>
    refine ⟨_, _, hexec.trans (finish_unspecified hs), ?_, ?_⟩
    · rw [freeWrites_regs, hwrites]
    · rw [freeFlags_names, hflags]

/-- A command whose operands have been written completes as `e` says, if `e` is its effect. -/
theorem exec_ready {i : Instr} {s : State} {e : Effect} (h : s.ready i = true)
    (he : exec i s = finish e s) (hr : e.reads = readsOf i) :
    exec i s = .next (s.complete e.writes e.flags) :=
  he.trans (finish_specified (by rw [hr]; exact h))

theorem ill_not_mem_flagsOf (i : Instr) : Flag.ill ∉ flagsOf i := by
  cases i <;> simp [flagsOf]

/-- The flags that a completion can list: ILL alone, or the computed flags of a command (R193). -/
def CompletionFlags (fs : List (Flag × Bool)) : Prop :=
  fs = [(.ill, true)] ∨ Flag.ill ∉ fs.map Prod.fst

/-- No completion writes a sample register (R12, R18). -/
theorem sample_not_mem_writesOf (i : Instr) (j : Fin 8) :
    Reg.x j ∉ writesOf i ∧ Reg.y j ∉ writesOf i := by
  cases i <;> simp [writesOf, pRegs]

/-- What an accepted word can do at its completing edge (R45, R66). -/
theorem completeWord_cases (w : Word) (s : State) :
    ∃ ws fs, completeWord w s = .next (s.complete ws fs) ∧ CompletionFlags fs ∧
      ∀ j, Reg.x j ∉ ws.map Prod.fst ∧ Reg.y j ∉ ws.map Prod.fst := by
  unfold completeWord
  split
  next i hi =>
    obtain ⟨ws, fs, hexec, hws, hfs⟩ := exec_complete i s
    refine ⟨ws, fs, hexec, .inr ?_, fun j => ?_⟩
    · rw [hfs]
      exact ill_not_mem_flagsOf i
    · rw [hws]
      exact sample_not_mem_writesOf i j
  next => exact ⟨[], [(.ill, true)], rfl, .inl rfl, by simp⟩

theorem completeWord_of_ok {w : Word} {i : Instr} (h : decode w = .ok i) (s : State) :
    completeWord w s = exec i s := by
  unfold completeWord
  rw [h]

theorem completeWord_of_error {w : Word} {e : DecodeError} (h : decode w = .error e) (s : State) :
    completeWord w s = .next (completeIllegal s) := by
  unfold completeWord
  rw [h]

/-! `STATUS` after a completion -/

theorem statusCompleted_ill : statusCompleted [(.ill, true)] = 0x00000006#32 := by decide

/-- The reserved bits read 0: neither DONE nor a flag stands there (R20). -/
theorem statusCompleted_reserved (fs : List (Flag × Bool)) :
    statusCompleted fs &&& reservedStatusBits = 0 := by
  refine BitVec.eq_of_getLsbD_eq fun j _ => ?_
  have hdone : reservedStatusBits.getLsbD 1 = false := by decide
  have hflag : ∀ f : Flag, reservedStatusBits.getLsbD f.bit = false := by
    intro f
    cases f <;> decide
  rw [BitVec.getLsbD_and, statusCompleted_bit]
  by_contra hbit
  simp only [BitVec.ofNat_eq_ofNat, BitVec.getLsbD_zero, Bool.not_eq_false, Bool.and_eq_true,
    Bool.or_eq_true, decide_eq_true_eq, List.any_eq_true] at hbit
  obtain ⟨rfl | ⟨f, -, -, rfl⟩, hres⟩ := hbit
  · cases hdone.symm.trans hres
  · cases (hflag f.1).symm.trans hres

/-- Every completion leaves `STATUS` and `PEND` in agreement (R20, R193). -/
theorem complete_consistent (s : State) (ws : List (Reg × Word)) {fs : List (Flag × Bool)}
    (hfs : CompletionFlags fs) : (s.complete ws fs).Consistent where
  reserved := statusCompleted_reserved fs
  busyPend := (complete_busy_done s ws fs).1
  busyOnly := by simp
  idleFlags := by simp [(complete_busy_done s ws fs).2]
  illAlone := by
    intro hill
    obtain rfl | habsent := hfs
    · exact statusCompleted_ill
    · rw [complete_flag_absent s ws fs .ill habsent] at hill
      cases hill
  waitIdle := fun _ => rfl

/-- Settles O34: a completion's writes and flags are those of the command's row, whether or not the
operands have been written. -/
theorem everyCommandCompletes : Obligations.EveryCommandCompletes := by
  intro i s
  obtain ⟨ws, fs, hexec, hws, hfs⟩ := exec_complete i s
  obtain ⟨hbusy, hdone⟩ := complete_busy_done s ws fs
  have hnodup : (ws.map Prod.fst).Nodup := hws ▸ writesOf_nodup i
  rw [← hws, ← hfs]
  refine ⟨_, hexec, hbusy, hdone, rfl, fun r hr => ?_, fun r hr => writeRegs_frame ws s r hr,
    fun f hf => complete_flag_absent s ws fs f hf, statusCompleted_reserved fs,
    complete_pins s ws fs⟩
  obtain ⟨⟨r, v⟩, hmem, rfl⟩ := List.mem_map.mp hr
  exact (writeRegs_result ws s hnodup r v hmem).2

/-! The record of error flags (R21, R199) -/

/-- A record to which flags are added holds what it held before. -/
theorem and_or_absorb (a b : BitVec 4) : a &&& (a ||| b) = a := by
  ext j hj
  simpa using Or.inl

/-- The record after a completion holds the error flags of that completion. -/
theorem complete_errors_hold (s : State) (ws : List (Reg × Word)) (fs : List (Flag × Bool)) :
    (s.complete ws fs).errors &&& (s.complete ws fs).status.extractLsb' 2 4 =
      (s.complete ws fs).status.extractLsb' 2 4 := by
  rw [complete_errors, complete_status, errorBits, BitVec.and_comm, BitVec.or_comm, and_or_absorb]

/-- A completion clears nothing of the record. -/
theorem complete_errors_keep (s : State) (ws : List (Reg × Word)) (fs : List (Flag × Bool)) :
    s.errors &&& (s.complete ws fs).errors = s.errors := by
  rw [complete_errors, and_or_absorb]

end Sys2Proof.Machine
end

section
/-! PROOFS. The register map and `RegRead` (10_state.md R10, 20_memory.md R41), and the state after
reset (R27). -/

namespace Sys2Proof.Machine

/-- The register map sends a data register's index back to it. -/
theorem portTarget_regIndex (r : Reg) : portTarget (regIndex r) = .data r := by
  cases r with
  | x i => fin_cases i <;> rfl
  | y i => fin_cases i <;> rfl
  | p i => fin_cases i <;> rfl
  | _ => rfl

theorem exists_portTarget_data_iff (idx : BitVec 6) :
    (∃ r, portTarget idx = .data r) ↔ idx.toNat < 0x28 ∧ idx ≠ 0x19#6 ∧ idx ≠ 0x1F#6 := by
  constructor
  · rintro ⟨r, hr⟩
    have hcmd : idx ≠ cmdIndex := mt (portTarget_eq_cmd_iff idx).mpr (by simp [hr])
    have hstatus : idx ≠ statusIndex := mt (portTarget_eq_status_iff idx).mpr (by simp [hr])
    have hncnt : idx ≠ ncntIndex := mt (portTarget_eq_ncnt_iff idx).mpr (by simp [hr])
    have hreserved := mt (portTarget_eq_reserved_iff idx).mpr (by simp [hr])
    rw [not_or, not_le] at hreserved
    rw [ne_eq, ← BitVec.toNat_inj] at hcmd hstatus
    simp only [cmdIndex, statusIndex, BitVec.toNat_ofNat] at hcmd hstatus
    exact ⟨by omega, hncnt, hreserved.1⟩
  · rintro ⟨hlt, hncnt, hreserved⟩
    refine portTarget_data_of_not_special ?_
    simp only [cmdIndex, statusIndex, ncntIndex, hncnt, hreserved, false_or, ← BitVec.toNat_inj,
      BitVec.toNat_ofNat]
    omega

/-- Settles O42: the index of a register and the register at an index are inverse to each other. -/
theorem registerMapIsOneToOne : Obligations.RegisterMapIsOneToOne :=
  ⟨portTarget_regIndex, fun _ _ => regIndex_of_portTarget_data, exists_portTarget_data_iff⟩

theorem regRead_of_status {idx : BitVec 6} (h : portTarget idx = .status) (s : State) :
    regRead s idx = s.status := by
  unfold regRead
  rw [h]

theorem regRead_of_cmd {idx : BitVec 6} (h : portTarget idx = .cmd) (s : State) :
    regRead s idx = 0 := by
  unfold regRead
  rw [h]

/-- An idle core answers what a written data register holds (R41). -/
theorem regRead_of_written {s : State} {r : Reg} (hb : s.busy = false)
    (hw : s.written.get r = true) : regRead s (regIndex r) = s.regs.get r := by
  unfold regRead
  rw [portTarget_regIndex]
  simp [hb, hw]

theorem regRead_of_reservedRange (s : State) {idx : BitVec 6} (h : 0x2A ≤ idx.toNat) :
    regRead s idx = 0 :=
  regRead_of_reserved ((portTarget_eq_reserved_iff idx).mpr (.inr h)) s

/-- Settles O38: one rule of `RegRead` for each kind of index. -/
theorem regReadFollowsTheMap : Obligations.RegReadFollowsTheMap := fun s =>
  ⟨regRead_of_status (by decide) s, regRead_of_ncnt (by decide) s, regRead_of_cmd (by decide) s,
    regRead_of_reserved (by decide) s, fun _ => regRead_of_reservedRange s,
    fun _ => regRead_of_written⟩

/-! The state after reset (R27) -/

@[simp] theorem reset_status : State.reset.status = 0 := rfl

/-- A core with `STATUS` 0 and nothing pending or awaited is consistent (R20). -/
theorem consistent_of_cleared {s : State} (hs : s.status = 0) (hp : s.pend = none)
    (hw : s.wait = 0) : s.Consistent where
  reserved := by rw [hs]; rfl
  busyPend := by rw [State.busy, hs, hp]; rfl
  busyOnly := by simp [hp]
  idleFlags := fun _ _ => hs
  illAlone := by simp [State.flag, hs]
  waitIdle := fun _ => hw

/-- Settles O47: reset clears `STATUS`, PEND and the model's `wait`. -/
theorem resetStateIsConsistent : Obligations.ResetStateIsConsistent :=
  consistent_of_cleared rfl rfl rfl

/-- Settles O48: `STATUS` 0 holds no flag; the reads are those of any state. -/
theorem resetStateAsTheSpecSays : Obligations.ResetStateAsTheSpecSays := by
  obtain ⟨-, hncnt, hcmd, hgap, hreserved, -⟩ := regReadFollowsTheMap State.reset
  refine ⟨rfl, rfl, rfl, hncnt, hcmd, hgap, hreserved, fun f => ?_,
    fun r => RegFile.get_const false r⟩
  simp [State.flag]

end Sys2Proof.Machine
end

section
/-! PROOFS. One clock edge, once for every step: what it can do and what it leaves (20_memory.md
R43 to R46, R54; 70_reset_and_hazards.md R220). -/

namespace Sys2Proof.Machine

/-! The state at an edge, with the cycle's read data taken and its entry of `pins` used up -/

/-- What the edge acts on: the state before it, the read of the cycle done (R43). -/
def latched (s : State) : State := observe (currentPin s) (dropPin s)

@[simp] theorem latched_regs (s : State) : (latched s).regs = s.regs := rfl
@[simp] theorem latched_status (s : State) : (latched s).status = s.status := rfl
@[simp] theorem latched_pend (s : State) : (latched s).pend = s.pend := rfl
@[simp] theorem latched_written (s : State) : (latched s).written = s.written := rfl
@[simp] theorem latched_wait (s : State) : (latched s).wait = s.wait := rfl
@[simp] theorem latched_pins (s : State) : (latched s).pins = s.pins.tail := rfl
@[simp] theorem latched_draws (s : State) : (latched s).draws = s.draws + 1 := rfl
@[simp] theorem latched_errors (s : State) : (latched s).errors = s.errors := rfl
@[simp] theorem latched_busy (s : State) : (latched s).busy = s.busy := rfl

/-- With `re = 1` the read data is `RegRead` of the state before the edge (R43). -/
theorem latched_rdata {s : State} (h : (currentPin s).re = true) :
    (latched s).rdata = regRead s (currentPin s).addr := by
  have hread : (latched s).rdata = portRead s (currentPin s) := rfl
  rw [hread, portRead, if_pos h]

/-- The host's write of the cycle, done at the edge before the core's own move (log entry 12). -/
def afterHost (s : State) : State := hostWrite (currentPin s) (latched s)

/-- One edge of the latency passes (R230). -/
def waitLess (s : State) : State := { s with wait := s.wait - 1 }

@[simp] theorem waitLess_regs (s : State) : (waitLess s).regs = s.regs := rfl
@[simp] theorem waitLess_status (s : State) : (waitLess s).status = s.status := rfl
@[simp] theorem waitLess_pend (s : State) : (waitLess s).pend = s.pend := rfl
@[simp] theorem waitLess_written (s : State) : (waitLess s).written = s.written := rfl
@[simp] theorem waitLess_wait (s : State) : (waitLess s).wait = s.wait - 1 := rfl
@[simp] theorem waitLess_pins (s : State) : (waitLess s).pins = s.pins := rfl
@[simp] theorem waitLess_rdata (s : State) : (waitLess s).rdata = s.rdata := rfl
@[simp] theorem waitLess_errors (s : State) : (waitLess s).errors = s.errors := rfl

/-! What a step can do -/

theorem step_reset {s : State} (h : (currentPin s).rst = true) :
    step s = .next (resetEdge (latched s)) := clockEdge_reset h (dropPin s)

theorem step_idle {s : State} (h : (currentPin s).rst = false) (hp : s.pend = none) :
    step s = .next (afterHost s) := clockEdge_idle (s := dropPin s) h hp

theorem step_pending {s : State} {w : Word} (h : (currentPin s).rst = false)
    (hp : s.pend = some w) :
    step s = if (afterHost s).wait = 0 then completeWord w (afterHost s)
      else .next (waitLess (afterHost s)) := by
  have hp' : (dropPin s).pend = some w := hp
  simp only [step, clockEdge, h, hp', coreMove]
  rfl

/-- Everything a step can do, from any state: the reset edge; on an idle core the host's write
alone; with a word pending its completion, or one edge less to wait. -/
theorem step_cases (s : State) :
    ((currentPin s).rst = true ∧ step s = .next (resetEdge (latched s))) ∨
    ((currentPin s).rst = false ∧ s.pend = none ∧ step s = .next (afterHost s)) ∨
    ((currentPin s).rst = false ∧ ∃ w, s.pend = some w ∧ (afterHost s).wait = 0 ∧
      ∃ ws fs, step s = .next ((afterHost s).complete ws fs) ∧ CompletionFlags fs ∧
        ∀ j, Reg.x j ∉ ws.map Prod.fst ∧ Reg.y j ∉ ws.map Prod.fst) ∨
    ((currentPin s).rst = false ∧ ∃ w, s.pend = some w ∧ (afterHost s).wait ≠ 0 ∧
      step s = .next (waitLess (afterHost s))) := by
  cases hr : (currentPin s).rst with
  | true => exact .inl ⟨rfl, step_reset hr⟩
  | false =>
    cases hp : s.pend with
    | none => exact .inr (.inl ⟨rfl, rfl, step_idle hr hp⟩)
    | some w =>
      by_cases hw : (afterHost s).wait = 0
      · obtain ⟨ws, fs, hword, hfs, hws⟩ := completeWord_cases w (afterHost s)
        have hstep : step s = .next ((afterHost s).complete ws fs) := by
          rw [step_pending hr hp, if_pos hw, hword]
        exact .inr (.inr (.inl ⟨rfl, w, rfl, hw, ws, fs, hstep, hfs, hws⟩))
      · have hstep : step s = .next (waitLess (afterHost s)) := by
          rw [step_pending hr hp, if_neg hw]
        exact .inr (.inr (.inr ⟨rfl, w, rfl, hw, hstep⟩))

/-- While busy the host's write is ignored, so the edge acts on the latched state (R46). -/
theorem afterHost_of_busy {s : State} (h : s.busy = true) : afterHost s = latched s :=
  hostWrite_busy (s := latched s) h (currentPin s)

theorem afterHost_of_no_write {s : State} (h : (currentPin s).we = false) :
    afterHost s = latched s := by
  simp [afterHost, hostWrite, h]

theorem afterHost_of_write {s : State} (h : (currentPin s).we = true) :
    afterHost s = regWrite (latched s) (currentPin s).addr (currentPin s).wdata := by
  simp [afterHost, hostWrite, h]

/-- What the host's write of the cycle can do, on an idle core only: the accept, or one data
register's write (R42). -/
theorem afterHost_cases (s : State) :
    afterHost s = latched s ∨
    (s.busy = false ∧ (currentPin s).we = true ∧ (currentPin s).addr = cmdIndex ∧
      ∃ n, afterHost s = accept (latched s) (currentPin s).wdata n) ∨
    (s.busy = false ∧ (currentPin s).we = true ∧ ∃ r, (currentPin s).addr = regIndex r ∧
      afterHost s = (latched s).writeReg r (currentPin s).wdata) := by
  cases hwe : (currentPin s).we with
  | false => exact .inl (afterHost_of_no_write hwe)
  | true =>
    rw [afterHost_of_write hwe]
    obtain hsame | ⟨hb, hcmd, haccept⟩ | ⟨hb, r, hdata, hwrite⟩ :=
      regWrite_cases (latched s) (currentPin s).addr (currentPin s).wdata
    · exact .inl hsame
    · exact .inr (.inl ⟨hb, rfl, (portTarget_eq_cmd_iff _).mp hcmd, _, haccept⟩)
    · exact .inr (.inr ⟨hb, rfl, r, (regIndex_of_portTarget_data hdata).symm, hwrite⟩)

@[simp] theorem afterHost_pins (s : State) : (afterHost s).pins = s.pins.tail :=
  (hostWrite_own (currentPin s) (latched s)).1

@[simp] theorem afterHost_rdata (s : State) : (afterHost s).rdata = (latched s).rdata :=
  (hostWrite_own (currentPin s) (latched s)).2.1

@[simp] theorem afterHost_errors (s : State) : (afterHost s).errors = s.errors :=
  (hostWrite_own (currentPin s) (latched s)).2.2.2

/-! A step from a state in which BUSY and PEND agree -/

theorem State.Consistent.busy_of_pend {s : State} (h : s.Consistent) {w : Word}
    (hp : s.pend = some w) : s.busy = true := by
  rw [h.busyPend, hp]
  rfl

theorem State.Consistent.not_busy_of_idle {s : State} (h : s.Consistent) (hp : s.pend = none) :
    s.busy = false := by
  rw [h.busyPend, hp]
  rfl

theorem step_busy {s : State} {w : Word} (h : (currentPin s).rst = false) (hp : s.pend = some w)
    (hb : s.busy = true) :
    step s = if s.wait = 0 then completeWord w (latched s)
      else .next (waitLess (latched s)) := by
  rw [step_pending h hp, afterHost_of_busy hb, latched_wait]

/-- Consistency speaks of `STATUS`, PEND and `wait` alone. -/
theorem State.Consistent.congr {s t : State} (h : s.Consistent) (hs : t.status = s.status)
    (hp : t.pend = s.pend) (hw : t.pend = none → t.wait = 0) : t.Consistent where
  reserved := by rw [hs]; exact h.reserved
  busyPend := by rw [State.busy, hs, hp]; exact h.busyPend
  busyOnly := by rw [hs, hp]; exact h.busyOnly
  idleFlags := by rw [State.doneFlag, hs, hp]; exact h.idleFlags
  illAlone := by rw [State.flag, hs]; exact h.illAlone
  waitIdle := hw

/-- From the accept on `STATUS` is BUSY alone and the word is in PEND (R44). -/
theorem accept_consistent (s : State) (w : Word) (n : Nat) : (accept s w n).Consistent where
  reserved := by rw [accept_status]; decide
  busyPend := accept_busy s w n
  busyOnly := fun _ => rfl
  idleFlags := by simp
  illAlone := by simp
  waitIdle := by simp

theorem latched_consistent {s : State} (h : s.Consistent) : (latched s).Consistent :=
  h.congr rfl rfl h.waitIdle

theorem afterHost_consistent {s : State} (h : s.Consistent) : (afterHost s).Consistent := by
  obtain hsame | ⟨-, -, -, n, haccept⟩ | ⟨-, -, r, -, hwrite⟩ := afterHost_cases s
  · rw [hsame]
    exact latched_consistent h
  · rw [haccept]
    exact accept_consistent ..
  · rw [hwrite]
    exact (latched_consistent h).congr rfl rfl h.waitIdle

/-- Settles O46: each thing a step can do leaves `STATUS` and PEND in agreement. -/
theorem consistencyIsKept : Obligations.ConsistencyIsKept := by
  intro s t h hstep
  obtain ⟨-, hs⟩ | ⟨-, -, hs⟩ | ⟨-, w, -, -, ws, fs, hs, hfs, -⟩ | ⟨-, w, hp, -, hs⟩ :=
      step_cases s <;> cases hs.symm.trans hstep
  case inl => exact consistent_of_cleared rfl rfl rfl
  case inr.inl => exact afterHost_consistent h
  case inr.inr.inl => exact complete_consistent _ ws hfs
  case inr.inr.inr =>
    have hsame : afterHost s = latched s := afterHost_of_busy (h.busy_of_pend hp)
    refine (afterHost_consistent h).congr rfl rfl fun hnone => ?_
    rw [waitLess_pend, hsame, latched_pend, hp] at hnone
    cases hnone

end Sys2Proof.Machine
end

section
/-! PROOFS. What a single step does, in the cases of `step_cases`: reset edges, reads, host writes,
completions (20_memory.md sections 2 to 6, 70_reset_and_hazards.md section 1). -/

namespace Sys2Proof.Machine

/-- Settles O45: in each case the step answers a next state. -/
theorem everyStepAnswersNext : Obligations.EveryStepAnswersNext := by
  intro s
  obtain ⟨-, hs⟩ | ⟨-, -, hs⟩ | ⟨-, -, -, -, ws, fs, hs, -⟩ | ⟨-, -, -, -, hs⟩ := step_cases s <;>
    exact ⟨_, hs⟩

/-- Settles O44: a busy core ignores the host's write, so the decoded command runs on the latched
state. -/
theorem stepRunsTheDecodedCommand : Obligations.StepRunsTheDecodedCommand := by
  intro s w i hp hdecode hwait hb hr
  refine ⟨wellFormed_of_decode hdecode, ?_⟩
  rw [step_busy hr hp hb, if_pos hwait, completeWord_of_ok hdecode]
  rfl

/-- Settles O49: the reset edge is the same from every state. -/
theorem resetEdgeAbandonsTheCommand : Obligations.ResetEdgeAbandonsTheCommand := by
  intro s hr
  refine ⟨_, step_reset hr, rfl, rfl, ?_, fun r => RegFile.get_const false r, rfl, rfl⟩
  simp [State.donePin, State.doneFlag]

/-! The read data (R43) -/

/-- Whatever happens at the edge, the read data is that of the cycle the edge ends. -/
theorem step_rdata {s t : State} (h : step s = .next t) : t.rdata = (latched s).rdata := by
  obtain ⟨-, hs⟩ | ⟨-, -, hs⟩ | ⟨-, -, -, -, ws, fs, hs, -⟩ | ⟨-, -, -, -, hs⟩ := step_cases s <;>
    cases hs.symm.trans h <;> simp

/-- Settles O57: every step answers, and keeps the read data of the state before it. -/
theorem readDataIsThatBeforeTheEdge : Obligations.ReadDataIsThatBeforeTheEdge := by
  intro s hre
  obtain ⟨t, hstep⟩ := everyStepAnswersNext s
  exact ⟨t, hstep, (step_rdata hstep).trans (latched_rdata hre)⟩

/-- Settles O50: without a write the edge on an idle core leaves the latched state. -/
theorem readsChangeNothing : Obligations.ReadsChangeNothing := by
  intro s hp hr hwe
  have hstep : step s = .next (latched s) := by rw [step_idle hr hp, afterHost_of_no_write hwe]
  refine ⟨latched s, hstep, rfl, rfl, rfl, hp, rfl, rfl, latched_rdata, ?_, ?_⟩
  · intro hre r haddr hb hw
    rw [latched_rdata hre, haddr, regRead_of_written hb hw]
  · intro hre haddr
    rw [latched_rdata hre, haddr, regRead_of_status (by decide)]

/-! A host write on an idle core (R42, R43) -/

/-- What `RegWrite` does to the spec's registers does not depend on the model's own fields. -/
theorem regWrite_congr {s s' : State} (hregs : s'.regs = s.regs) (hwritten : s'.written = s.written)
    (hstatus : s'.status = s.status) (hpend : s'.pend = s.pend) (idx : BitVec 6) (v : Word) :
    (regWrite s' idx v).regs = (regWrite s idx v).regs ∧
    (regWrite s' idx v).written = (regWrite s idx v).written ∧
    (regWrite s' idx v).status = (regWrite s idx v).status ∧
    (regWrite s' idx v).pend = (regWrite s idx v).pend := by
  have hbusy : s'.busy = s.busy := by rw [State.busy, hstatus, State.busy]
  cases hb : s.busy with
  | true =>
    rw [regWrite_busy hb, regWrite_busy (hbusy.trans hb)]
    exact ⟨hregs, hwritten, hstatus, hpend⟩
  | false =>
    cases ht : portTarget idx with
    | data r =>
      rw [regWrite_of_data hb ht, regWrite_of_data (hbusy.trans hb) ht]
      simp only [writeReg_regs, writeReg_written, writeReg_status, writeReg_pend]
      simp [hregs, hwritten, hstatus, hpend]
    | cmd =>
      rw [regWrite_of_cmd hb ht, regWrite_of_cmd (hbusy.trans hb) ht]
      exact ⟨hregs, hwritten, rfl, rfl⟩
    | status =>
      rw [regWrite_of_status ht, regWrite_of_status ht]
      exact ⟨hregs, hwritten, hstatus, hpend⟩
    | ncnt =>
      rw [regWrite_of_ncnt ht, regWrite_of_ncnt ht]
      exact ⟨hregs, hwritten, hstatus, hpend⟩
    | reserved =>
      rw [regWrite_of_reserved ht, regWrite_of_reserved ht]
      exact ⟨hregs, hwritten, hstatus, hpend⟩

/-- Settles O56: the step performs `RegWrite`, whose rules are those of `regWriteFollowsTheMap`. -/
theorem hostWriteIsPerformedAtTheEdge : Obligations.HostWriteIsPerformedAtTheEdge := by
  intro s hcons hp hr hwe
  have hb : s.busy = false := hcons.not_busy_of_idle hp
  obtain ⟨hregs, hwritten, hstatus, hpend⟩ :=
    regWrite_congr (s := s) (s' := latched s) rfl rfl rfl rfl (currentPin s).addr
      (currentPin s).wdata
  rw [← afterHost_of_write hwe] at hregs hwritten hstatus hpend
  refine ⟨afterHost s, step_idle hr hp, hregs, hwritten, hstatus, hpend, fun r haddr => ?data,
    fun haddr => ?cmd, fun haddr => ?ignored,
    fun hre => (afterHost_rdata s).trans (latched_rdata hre)⟩
  all_goals rw [hregs, hwritten, hstatus, hpend]
  case data =>
    rw [haddr, regWrite_of_data hb (portTarget_regIndex r)]
    refine ⟨by simp, by simp, fun r' hne => ?_, rfl, hp⟩
    simp [hne.symm]
  case cmd =>
    rw [regWrite_of_cmd hb ((portTarget_eq_cmd_iff _).mpr haddr)]
    exact ⟨rfl, rfl, rfl, rfl⟩
  case ignored =>
    obtain ⟨-, -, hnothing, -⟩ := regWriteFollowsTheMap s (currentPin s).addr (currentPin s).wdata
    rw [hnothing hb haddr]
    exact ⟨rfl, rfl, rfl, hp⟩

/-! The sample registers (R12) -/

/-- A register that the host's write of the cycle does not reach is as before. -/
theorem afterHost_frame {s : State} {r : Reg}
    (h : ¬ ((currentPin s).we = true ∧ s.busy = false ∧ (currentPin s).addr = regIndex r)) :
    (afterHost s).regs.get r = s.regs.get r ∧ (afterHost s).written.get r = s.written.get r := by
  obtain hsame | ⟨-, -, -, n, haccept⟩ | ⟨hb, hwe, r', haddr, hwrite⟩ := afterHost_cases s
  · rw [hsame]
    exact ⟨rfl, rfl⟩
  · rw [haccept]
    exact ⟨rfl, rfl⟩
  · have hne : r' ≠ r := fun heq => h ⟨hwe, hb, heq ▸ haddr⟩
    rw [hwrite]
    simp [hne]

/-- Settles O53: no completion writes a sample register, so the host's write alone could. -/
theorem samplesChangeOnlyByHostWrites : Obligations.SamplesChangeOnlyByHostWrites := by
  intro s t i r hsample hstep hr hnot
  obtain ⟨hregs, hwritten⟩ := afterHost_frame hnot
  obtain ⟨hreset, -⟩ | ⟨-, -, hs⟩ | ⟨-, -, -, -, ws, fs, hs, -, hws⟩ | ⟨-, -, -, -, hs⟩ :=
    step_cases s
  · cases hr.symm.trans hreset
  · cases hs.symm.trans hstep
    exact ⟨hregs, hwritten⟩
  · cases hs.symm.trans hstep
    have habsent : r ∉ ws.map Prod.fst := by
      obtain rfl | rfl := hsample
      · exact (hws i).1
      · exact (hws i).2
    obtain ⟨hregs', hwritten'⟩ := writeRegs_frame ws (afterHost s) r habsent
    exact ⟨hregs'.trans hregs, hwritten'.trans hwritten⟩
  · cases hs.symm.trans hstep
    exact ⟨hregs, hwritten⟩

/-! The record of error flags (R21, R199) -/

theorem step_errors_keep {s t : State} (h : step s = .next t) :
    s.errors &&& t.errors = s.errors := by
  obtain ⟨-, hs⟩ | ⟨-, -, hs⟩ | ⟨-, -, -, -, ws, fs, hs, -⟩ | ⟨-, -, -, -, hs⟩ := step_cases s <;>
    cases hs.symm.trans h
  case inl => exact BitVec.and_self
  case inr.inl => rw [afterHost_errors, BitVec.and_self]
  case inr.inr.inl => simpa using complete_errors_keep (afterHost s) ws fs
  case inr.inr.inr => rw [waitLess_errors, afterHost_errors, BitVec.and_self]

/-- Settles O55: a completion ORs its own flags into the record, and nothing else changes it. -/
theorem errorRecordIsSticky : Obligations.ErrorRecordIsSticky := by
  refine ⟨fun s t => step_errors_keep, fun i s t h => ?_, fun w s t h => ?_⟩
  · obtain ⟨ws, fs, hexec, -⟩ := exec_complete i s
    cases hexec.symm.trans h
    exact complete_errors_hold s ws fs
  · obtain ⟨ws, fs, hword, -⟩ := completeWord_cases w s
    cases hword.symm.trans h
    exact complete_errors_hold s ws fs

/-! The done pin (R24, 60_exceptions.md section 3) -/

/-- While a word is pending DONE reads 0. -/
theorem State.Consistent.donePin_of_pend {s : State} (h : s.Consistent) {w : Word}
    (hp : s.pend = some w) : s.donePin = false := by
  have hstatus : s.status = statusAccepted := h.busyOnly (by rw [hp]; rfl)
  rw [State.donePin, State.doneFlag, hstatus]
  decide

/-- The host's write moves the done pin only as the accept of the word it writes to CMD. -/
theorem afterHost_donePin (s : State) :
    (afterHost s).donePin = s.donePin ∨
    ((currentPin s).we = true ∧ (currentPin s).addr = cmdIndex ∧ (afterHost s).donePin = false ∧
      (afterHost s).pend = some (currentPin s).wdata) := by
  obtain hsame | ⟨-, hwe, haddr, n, haccept⟩ | ⟨-, -, r, -, hwrite⟩ := afterHost_cases s
  · exact .inl (by rw [hsame]; rfl)
  · rw [haccept]
    exact .inr ⟨hwe, haddr, accept_doneFlag _ _ n, rfl⟩
  · exact .inl (by rw [hwrite]; rfl)

/-- On an idle core a write to CMD is the accept. -/
theorem afterHost_accept {s : State} (hb : s.busy = false) (hwe : (currentPin s).we = true)
    (haddr : (currentPin s).addr = cmdIndex) :
    ∃ n, afterHost s = accept (latched s) (currentPin s).wdata n := by
  rw [afterHost_of_write hwe]
  exact ⟨_, regWrite_of_cmd (s := latched s) hb ((portTarget_eq_cmd_iff _).mpr haddr) _⟩

/-- Settles O54: the pin is 0 after a reset edge and while a word is pending, 1 after a completion,
and on an idle core the accept alone moves it. -/
theorem donePinRisesAndFalls : Obligations.DonePinRisesAndFalls := by
  intro s t hcons hstep
  obtain ⟨hr, hs⟩ | ⟨hr, hp, hs⟩ | ⟨hr, w, hp, hwait, ws, fs, hs, -⟩ | ⟨hr, w, hp, hwait, hs⟩ :=
      step_cases s <;> cases hs.symm.trans hstep
  case inl =>
    have hdone : (resetEdge (latched s)).donePin = false := by
      simp [State.donePin, State.doneFlag]
    simp [hr, hdone]
  case inr.inl =>
    refine ⟨by simp [hp], fun _ hwe haddr _ => ?_, by simp [hr], fun hlow hhigh => ?_,
      fun hhigh hlow => ?_⟩
    · obtain ⟨n, haccept⟩ := afterHost_accept (hcons.not_busy_of_idle hp) hwe haddr
      rw [haccept]
      exact ⟨accept_doneFlag _ _ n, rfl⟩
    · obtain hkeep | ⟨-, -, hfalls, -⟩ := afterHost_donePin s
      · cases hlow.symm.trans (hkeep.symm.trans hhigh)
      · cases hfalls.symm.trans hhigh
    · obtain hkeep | ⟨hwe, haddr, -, hpend⟩ := afterHost_donePin s
      · cases hlow.symm.trans (hkeep.trans hhigh)
      · exact .inr ⟨hwe, haddr, hpend⟩
  case inr.inr.inl =>
    have hlow : s.donePin = false := hcons.donePin_of_pend hp
    have hhigh : ((afterHost s).complete ws fs).donePin = true := (complete_busy_done _ ws fs).2
    rw [afterHost_of_busy (hcons.busy_of_pend hp), latched_wait] at hwait
    simp [hr, hp, hlow, hhigh, hwait]
  case inr.inr.inr =>
    have hlow : s.donePin = false := hcons.donePin_of_pend hp
    have hsame : afterHost s = latched s := afterHost_of_busy (hcons.busy_of_pend hp)
    have hlow' : (waitLess (afterHost s)).donePin = false := by
      rw [hsame]
      exact hlow
    rw [hsame, latched_wait] at hwait
    simp [hr, hp, hlow, hlow', hwait]

end Sys2Proof.Machine
end

section
/-! PROOFS. Two runs of the same busy core, and the run of a command from its accept to its
completion (20_memory.md R45, R46; 70_reset_and_hazards.md R230). -/

namespace Sys2Proof.Machine

/-! A completion depends on the data registers and on the draw alone -/

/-- `t` differs from `s` at most in what the host drives and reads, and in `STATUS`, PEND and
`wait`, which a completion overwrites. -/
structure SameData (s t : State) : Prop where
  regs : t.regs = s.regs
  written : t.written = s.written
  draws : t.draws = s.draws
  errors : t.errors = s.errors

/-- The same effect completes with the same writes and flags, free values included (R26). -/
theorem finish_congr (e : Effect) {s s' : State} (h : SameData s s') :
    ∃ ws fs, finish e s = .next (s.complete ws fs) ∧ finish e s' = .next (s'.complete ws fs) := by
  have hspec : s'.specified e.reads = s.specified e.reads := by
    simp only [State.specified, h.written]
  cases hs : s.specified e.reads with
  | true => exact ⟨_, _, finish_specified hs, finish_specified (hspec.trans hs)⟩
  | false =>
    have hwrites : s'.freeWrites e.writes = s.freeWrites e.writes := by
      simp only [State.freeWrites, h.draws]
    have hflags : s'.freeFlags e.flags = s.freeFlags e.flags := by
      simp only [State.freeFlags, h.draws]
    exact ⟨_, _, finish_unspecified hs,
      hwrites ▸ hflags ▸ finish_unspecified (hspec.trans hs)⟩

theorem completeWord_congr (w : Word) {s s' : State} (h : SameData s s') :
    ∃ ws fs, completeWord w s = .next (s.complete ws fs) ∧
      completeWord w s' = .next (s'.complete ws fs) := by
  cases hd : decode w with
  | ok i =>
    obtain ⟨e, he, he', -⟩ := exec_effect_congr i h.regs
    rw [completeWord_of_ok hd, completeWord_of_ok hd, he, he']
    exact finish_congr e h
  | error e =>
    exact ⟨[], [(.ill, true)], completeWord_of_error hd s, completeWord_of_error hd s'⟩

/-- Settles O51: the write is ignored, so both edges act on latched states with the same data. -/
theorem busyIgnoresHostWrites : Obligations.BusyIgnoresHostWrites := by
  intro s s' hb hregs hwritten hstatus hpend hwait hdraws herrors hr hr'
  have hb' : s'.busy = true := by
    rw [State.busy, hstatus]
    exact hb
  have hsame : SameData (latched s) (latched s') :=
    ⟨hregs, hwritten, by simp [hdraws], herrors⟩
  cases hp : s.pend with
  | none =>
    refine ⟨_, _, step_idle hr hp, step_idle hr' (hpend.trans hp), ?_⟩
    rw [afterHost_of_busy hb, afterHost_of_busy hb']
    exact ⟨hregs.symm, hwritten.symm, hstatus.symm, hpend.symm, hwait.symm, herrors.symm⟩
  | some w =>
    rw [step_busy hr hp hb, step_busy hr' (hpend.trans hp) hb', hwait]
    by_cases hzero : s.wait = 0
    · obtain ⟨ws, fs, hword, hword'⟩ := completeWord_congr w hsame
      obtain ⟨hregs', hwritten'⟩ := writeRegs_congr ws hsame.regs hsame.written
      rw [if_pos hzero, if_pos hzero]
      refine ⟨_, _, hword, hword', hregs'.symm, hwritten'.symm, rfl, rfl, rfl, ?_⟩
      rw [complete_errors, complete_errors, hsame.errors]
    · rw [if_neg hzero, if_neg hzero]
      refine ⟨_, _, rfl, rfl, hregs.symm, hwritten.symm, hstatus.symm, hpend.symm, ?_,
        herrors.symm⟩
      simp [hwait]

/-! The latency (R230) -/

/-- `m` is `s` with `n` edges of the latency passed: what the host drives is used up, nothing else
that the command or its completion depends on has changed. -/
structure WaitedFrom (s m : State) (n : Nat) : Prop where
  regs : m.regs = s.regs
  written : m.written = s.written
  status : m.status = s.status
  pend : m.pend = s.pend
  wait : m.wait = s.wait - n
  pins : m.pins = s.pins.drop n

theorem WaitedFrom.busy {s m : State} {n : Nat} (h : WaitedFrom s m n) : m.busy = s.busy := by
  rw [State.busy, h.status, State.busy]

/-- The host does not reset in a cycle whose entry of `pins` says so, nor once it is idle. -/
theorem currentPin_rst_of_take {s : State} {n k : Nat} (hnk : n < k)
    (h : ∀ p ∈ s.pins.take k, p.rst = false) {m : State} (hm : m.pins = s.pins.drop n) :
    (currentPin m).rst = false := by
  rw [currentPin, hm, List.headD_eq_head?_getD, List.head?_drop]
  cases hget : s.pins[n]? with
  | none => rfl
  | some p =>
    refine h p (List.mem_of_getElem? (i := n) ?_)
    rw [List.getElem?_take_of_lt hnk, hget]

/-- One edge more of the latency. -/
theorem step_waited {s m : State} {w : Word} {n : Nat} (h : WaitedFrom s m n) (hn : n < s.wait)
    (hp : s.pend = some w) (hb : s.busy = true) (hr : (currentPin m).rst = false) :
    ∃ m', step m = .next m' ∧ WaitedFrom s m' (n + 1) := by
  have hwait : m.wait ≠ 0 := by
    rw [h.wait]
    omega
  refine ⟨waitLess (latched m), ?_, h.regs, h.written, h.status, h.pend, ?_, ?_⟩
  · rw [step_busy hr (h.pend.trans hp) (h.busy.trans hb), if_neg hwait]
  · rw [waitLess_wait, latched_wait, h.wait]
    omega
  · rw [waitLess_pins, latched_pins, h.pins, List.tail_drop]

theorem run_succ {s t : State} (h : step s = .next t) (n : Nat) :
    core.run (n + 1) s = core.run n t := by
  have hstep : core.step s = .next t := h
  simp only [Host.Core.run, hstep]

/-- A run of one step more takes that step at its end. -/
theorem run_succ_of_run {n : Nat} {s m : State} (h : core.run n s = .next m) :
    core.run (n + 1) s = step m := by
  induction n generalizing s with
  | zero =>
    cases h
    obtain ⟨t, ht⟩ := everyStepAnswersNext m
    rw [run_succ ht, ht]
    rfl
  | succ n ih =>
    obtain ⟨t, ht⟩ := everyStepAnswersNext s
    rw [run_succ ht] at h ⊢
    exact ih h

/-- As long as the latency lasts and no reset comes, the core waits (R46, R230). -/
theorem run_waited {s : State} {w : Word} (hp : s.pend = some w) (hb : s.busy = true)
    (hpins : ∀ p ∈ s.pins.take (s.wait + 1), p.rst = false) {n : Nat} (hn : n ≤ s.wait) :
    ∃ m, core.run n s = .next m ∧ WaitedFrom s m n := by
  induction n with
  | zero => exact ⟨s, rfl, rfl, rfl, rfl, rfl, rfl, rfl⟩
  | succ n ih =>
    obtain ⟨m, hrun, hm⟩ := ih (by omega)
    have hr : (currentPin m).rst = false := currentPin_rst_of_take (by omega) hpins hm.pins
    obtain ⟨m', hstep, hm'⟩ := step_waited hm hn hp hb hr
    exact ⟨m', (run_succ_of_run hrun).trans hstep, hm'⟩

/-- With its operands written a command gives the same results from the same data registers. -/
theorem exec_congr_of_ready {i : Instr} {s s' : State} (h : s.ready i = true)
    (hregs : s'.regs = s.regs) (hwritten : s'.written = s.written) :
    ∃ ws fs, exec i s = .next (s.complete ws fs) ∧ exec i s' = .next (s'.complete ws fs) := by
  obtain ⟨e, he, he', hreads⟩ := exec_effect_congr i hregs
  have h' : s'.ready i = true := by
    rw [State.ready, State.specified, hwritten]
    exact h
  exact ⟨e.writes, e.flags, exec_ready h he hreads, exec_ready h' he' hreads⟩

/-- Settles O52: the core waits out the latency with the registers of the accept, and the completion
at the next edge depends on those alone. -/
theorem acceptedCommandCompletes : Obligations.AcceptedCommandCompletes := by
  intro s w hcons hp hpins
  have hb : s.busy = true := hcons.busy_of_pend hp
  refine ⟨fun n hn => ?_, ?_⟩
  · obtain ⟨m, hrun, hm⟩ := run_waited hp hb hpins hn
    exact ⟨m, hrun, hm.pend.trans hp, hm.regs, hm.written, hm.status⟩
  · obtain ⟨m, hrun, hm⟩ := run_waited hp hb hpins le_rfl
    have hr : (currentPin m).rst = false := currentPin_rst_of_take (by omega) hpins hm.pins
    have hzero : m.wait = 0 := by
      rw [hm.wait, Nat.sub_self]
    have hlast : core.run (s.wait + 1) s = completeWord w (latched m) := by
      rw [run_succ_of_run hrun, step_busy hr (hm.pend.trans hp) (hm.busy.trans hb), if_pos hzero]
    obtain ⟨ws, fs, hword, -⟩ := completeWord_cases w (latched m)
    obtain ⟨hbusy, hdone⟩ := complete_busy_done (latched m) ws fs
    refine ⟨_, hlast.trans hword, rfl, hbusy, hdone, fun i hd hready => ?legal,
      fun e hd => ?illegal⟩
    case legal =>
      obtain ⟨ws', fs', hexec, hexec'⟩ :=
        exec_congr_of_ready (s' := latched m) hready hm.regs hm.written
      obtain ⟨hregs, hwritten⟩ := writeRegs_congr ws' (s' := latched m) hm.regs hm.written
      rw [completeWord_of_ok hd, hexec'] at hword
      injection hword with heq
      rw [← heq]
      exact ⟨_, hexec, hregs, hwritten, rfl⟩
    case illegal =>
      rw [completeWord_of_error hd] at hword
      injection hword with heq
      rw [← heq]
      exact ⟨hm.regs, statusCompleted_ill⟩

end Sys2Proof.Machine
end

section
/-! PROOFS. The commands one by one: what each completes with when its operands have been written
(40_fixedpoint.md R90 to R95, 41_reciprocal.md R114, 42_accumulator.md R136, 43_solver.md R153 to
R158, 44_control.md R180), and the illegal word (30_encoding.md R66). -/

namespace Sys2Proof.Machine

/-! A completion with written operands -/

/-- With written operands a command completes with the writes and the flags of its effect (R45). -/
theorem exec_completedWith {i : Instr} {s : State} {e : Effect} {value : Reg → Word} {status : Word}
    (he : exec i s = finish e s) (hw : e.writes.map Prod.fst = writesOf i)
    (h : s.specified e.reads = true) (hv : ∀ w ∈ e.writes, value w.1 = w.2)
    (hs : statusCompleted e.flags = status) :
    exec i s = .next (s.complete e.writes e.flags) ∧
    CompletedWith s (s.complete e.writes e.flags) (writesOf i) value status := by
  subst hs
  rw [← hw]
  exact ⟨he.trans (finish_specified h),
    complete_completedWith s e.writes e.flags (hw ▸ writesOf_nodup i) value hv⟩

/-- A primitive command leaves its result in RES and its overflow bit in OVF. -/
theorem primitive_completedWith {i : Instr} {s : State} {reads : List Reg} {r : Word × Bool}
    {v : Word} (he : exec i s = finish (primitiveEffect reads r) s) (hi : writesOf i = [.res])
    (h : s.specified reads = true) (hv : r.1 = v) :
    ∃ t, exec i s = .next t ∧ CompletedWith s t [.res] (fun _ => v) (doneOvf r.2) := by
  rw [← hi]
  exact ⟨_, exec_completedWith he hi.symm h (by simp [primitiveEffect, hv])
    (statusCompleted_ovf r.2)⟩

theorem specified_opa_opb {s : State} (ha : s.written.opa = true) (hb : s.written.opb = true) :
    s.specified [.opa, .opb] = true := by
  simp [State.specified, RegFile.get, ha, hb]

theorem specified_single {s : State} {r : Reg} (h : s.written.get r = true) :
    s.specified [r] = true := by
  simp [State.specified, h]

/-! The primitive commands -/

/-- Settles O13: RES is the sum modulo 2^32. -/
theorem addCompletes : Obligations.AddCompletes :=
  ⟨by decide, fun _ ha hb =>
    primitive_completedWith rfl rfl (specified_opa_opb ha hb) (fxAdd_fst _ _)⟩

/-- Settles O14: RES is the difference modulo 2^32. -/
theorem subCompletes : Obligations.SubCompletes :=
  ⟨by decide, fun _ ha hb =>
    primitive_completedWith rfl rfl (specified_opa_opb ha hb) (fxSub_fst _ _)⟩

/-- Settles O15: the bits of the 64-bit product are those of `mul` (R86). -/
theorem mulCompletes : Obligations.MulCompletes := by
  refine ⟨by decide, fun s ha hb => ?_⟩
  obtain ⟨t, ht, hc⟩ :=
    primitive_completedWith (i := .mul) rfl rfl (specified_opa_opb ha hb) (fxMul_fst_eq_bits _ _)
  exact ⟨t, _, ht, hc, fxMul_fits_iff_topBits _ _⟩

/-- The word of a command, written out as the opcode and the immediate from bit 8 on (R61). -/
theorem decode_ofNat_fields {i : Instr} (h : i.wellFormed = true) :
    decode (BitVec.ofNat 32 (i.opcode.toNat + i.immediate * 256)) = .ok i := by
  have hword : BitVec.ofNat 32 (i.opcode.toNat + i.immediate * 256) = encode i := by
    rw [← encode_toNat h, BitVec.ofNat_toNat, BitVec.setWidth_eq]
  rw [hword]
  exact decodeOfEncodeIsTheInstruction i h

/-- Settles O16: RES is the shifted pattern; OPB is not read. -/
theorem shlCompletes : Obligations.ShlCompletes := by
  intro n hn
  refine ⟨decode_ofNat_fields (i := .shl n) (decide_eq_true hn), fun s ha => ?_⟩
  obtain ⟨t, ht, hc⟩ :=
    primitive_completedWith (i := .shl n) rfl rfl (specified_single (r := .opa) ha) (fxShl_fst _ n)
  exact ⟨t, _, ht, hc, fxShl_ovf_iff _ hn⟩

/-- `STATUS` after CMP: the one comparison flag that holds (R89, R94). -/
theorem statusCompleted_cmp (a b : Word) :
    statusCompleted [(.lt, (fxCmp3 a b).1), (.eq, (fxCmp3 a b).2.1), (.gt, (fxCmp3 a b).2.2)] =
      if sint a < sint b then 0x00000102#32 else if a = b then 0x00000202#32
      else 0x00000402#32 := by
  obtain hlt | heq | hgt := lt_trichotomy (sint a) (sint b)
  · have hne : a ≠ b := fun h => hlt.ne (sint_inj.mpr h)
    simp only [fxCmp3, hlt, hne, not_lt.mpr hlt.le, decide_true, decide_false, if_true]
    decide
  · simp only [fxCmp3, sint_inj.mp heq, lt_irrefl, decide_true, decide_false, if_true, if_false]
    decide
  · have hne : a ≠ b := fun h => hgt.ne' (sint_inj.mpr h)
    simp only [fxCmp3, hgt, hne, not_lt.mpr hgt.le, decide_true, decide_false, if_false]
    decide

/-- Settles O17: CMP writes no register, and by trichotomy one of its flags. -/
theorem cmpCompletes : Obligations.CmpCompletes :=
  ⟨by decide, fun _ ha hb => ⟨_, exec_completedWith (i := .cmp) rfl rfl (specified_opa_opb ha hb)
    (by simp) (statusCompleted_cmp _ _)⟩⟩

theorem fxOnehot_eq_twoPow (n : Nat) : fxOnehot n = BitVec.twoPow 32 n := by
  apply BitVec.eq_of_toNat_eq
  rw [fxOnehot, BitVec.toNat_ofNat, BitVec.toNat_twoPow]

theorem statusCompleted_nil : statusCompleted [] = 0x00000002#32 := by decide

/-- Settles O18: ONEHOT reads nothing, so it completes with its result from every state. -/
theorem onehotCompletes : Obligations.OnehotCompletes := fun n hn =>
  ⟨decode_ofNat_fields (i := .onehot n) (decide_eq_true hn), fun _ =>
    ⟨_, exec_completedWith (i := .onehot n) rfl rfl rfl (by simp [fxOnehot_eq_twoPow n])
      statusCompleted_nil⟩⟩

/-- Settles O19: NOP is a completion without writes and without flags. -/
theorem nopCompletes : Obligations.NopCompletes :=
  ⟨by decide, fun _ => ⟨_, exec_completedWith (i := .nop) rfl rfl rfl (by simp)
    statusCompleted_nil⟩⟩

/-! The reciprocal, the accumulator and the solver -/

/-- Settles O25: RECIP writes and flags what `recip` answers. -/
theorem recipCompletes : Obligations.RecipCompletes :=
  ⟨by decide, fun _ hdet => ⟨_, exec_completedWith (i := .recip) rfl rfl
    (specified_single (r := .det) hdet) (by simp [kshOf]) (statusCompleted_errors _ _ false).1⟩⟩

/-- Settles O27: the registers hold the answers of `acc`, whose determinant is that of the sums it
answers. -/
theorem accCompletes : Obligations.AccCompletes := by
  refine ⟨by decide, fun s hx => ?_⟩
  obtain ⟨hsumx, hsumxx, hdet, hdegen⟩ := acc_values s.regs.x
  refine ⟨_, _, and_assoc.mp ⟨exec_completedWith (i := .acc) rfl rfl ((specified_xRegs s).mpr hx)
    ?values ?status, acc_ovf_iff s.regs.x⟩⟩
  case values =>
    simp only [List.forall_mem_cons, List.not_mem_nil, false_implies, implies_true, and_true]
    refine ⟨?_, ?_, hdet.symm⟩
    · rw [hsumx, tree8_fst_eq_wrap32_sum]
    · rw [hsumxx, tree8_fst_eq_wrap32_sum]
      simp only [perLane_get]
  case status =>
    rw [hdegen]
    exact (statusCompleted_errors false _ _).2.1

/-- Settles O28: the registers hold the answers of `coef`; the lane terms are those of `laneTerms`
over the coefficients it answers. -/
theorem coefCompletes : Obligations.CoefCompletes := by
  refine ⟨by decide, fun s hx hy hsumx hsumxx hrcp => ?_⟩
  have hread : s.specified (xRegs ++ yRegs ++ [.sumx, .sumxx, .rcp]) = true := by
    rw [specified_append, specified_append, (specified_xRegs s).mpr hx, (specified_yRegs s).mpr hy]
    simp [State.specified, RegFile.get, hsumx, hsumxx, hrcp]
  obtain ⟨hc, hd, he, hth0, hth1⟩ := coef_values
    (rfl : coef s.regs.x s.regs.y s.regs.sumx s.regs.sumxx s.regs.rcp = _)
  have hovf := coef_ovf_iff (rfl : coef s.regs.x s.regs.y s.regs.sumx s.regs.sumxx s.regs.rcp = _)
  simp only [laneTerms_ovf_iff] at hovf
  refine ⟨_, _, and_assoc.mp ⟨exec_completedWith (i := .coef) rfl rfl hread ?values
    (statusCompleted_ovf _), hovf⟩⟩
  case values =>
    simp only [List.forall_mem_cons, List.not_mem_nil, false_implies, implies_true, and_true]
    refine ⟨hc.symm, hd.symm, he.symm, ?_, ?_⟩
    · rw [hth0, tree8_fst_eq_wrap32_sum]
      simp only [perLane_get]
      rfl
    · rw [hth1, tree8_fst_eq_wrap32_sum]
      simp only [perLane_get]
      rfl

/-- Settles O29: P holds the answers of `predict`, lane by lane. -/
theorem predictCompletes : Obligations.PredictCompletes := by
  refine ⟨by decide, fun s hx hth0 hth1 => ?_⟩
  have hread : s.specified (xRegs ++ [.th0, .th1]) = true := by
    rw [specified_append, (specified_xRegs s).mpr hx]
    simp [State.specified, RegFile.get, hth0, hth1]
  obtain ⟨hvalues, hovf⟩ := predict_values s.regs.x s.regs.th0 s.regs.th1
  refine ⟨_, _, and_assoc.mp ⟨exec_completedWith (i := .predict) rfl rfl hread ?values
    (statusCompleted_ovf _), hovf⟩⟩
  case values =>
    simp only [List.forall_mem_map]
    exact fun i _ => (hvalues i).symm

theorem specified_samples {s : State} (hx : ∀ i : Fin 8, s.written.x[i] = true)
    (hy : ∀ i : Fin 8, s.written.y[i] = true) : s.specified (xRegs ++ yRegs) = true := by
  rw [specified_append, (specified_xRegs s).mpr hx, (specified_yRegs s).mpr hy]
  rfl

/-- The answers of FIT's three stages by name, each stage fed by the one before (R157). -/
theorem exists_fit_stages (x y : Vector Word 8) :
    ∃ a q c, acc x = a ∧ recip a.det = q ∧ coef x y a.sumx a.sumxx q.x = c :=
  ⟨_, _, _, rfl, rfl, rfl⟩

/-- Settles O30: the effect of FIT is that of its three stages. -/
theorem fitCompletes : Obligations.FitCompletes := by
  refine ⟨by decide, fun s hx hy => ?_⟩
  obtain ⟨a, q, c, ha, hq, hc⟩ := exists_fit_stages s.regs.x s.regs.y
  exact ⟨_, a, q, c, ha.symm, hq.symm, hc.symm, exec_completedWith (i := .fit)
    (execFit_stages s ha hq hc) rfl (specified_samples hx hy)
    (by simp [fitEffect, kshOf]) (statusCompleted_errors _ _ _).2.2⟩

/-! The illegal word (R66) -/

/-- Settles O37: decoding fails on exactly the words of R66; the accept looks at no bit of the
word, and the completion leaves an idle core. -/
theorem illegalWordsCompleteWithIll : Obligations.IllegalWordsCompleteWithIll := by
  refine ⟨exists_decode_error_iff, fun w e s hd => ⟨fun hb => ?accepted, ?completes⟩⟩
  case accepted =>
    obtain ⟨hpend, -, -, -, -, hbusy, -⟩ := writeToCmdIsAccepted s w hb
    exact ⟨hpend, hbusy⟩
  case completes =>
    refine ⟨_, completeWord_of_error hd s, ?_, fun w' => ?_⟩
    · rw [← statusCompleted_ill]
      exact complete_completedWith s [] _ List.nodup_nil _ (by simp)
    · have hidle : (completeIllegal s).busy = false := (complete_busy_done s [] _).1
      exact (writeToCmdIsAccepted _ w' hidle).1

end Sys2Proof.Machine
end

section
/-! PROOFS. FIT against its three stages, under a permutation of the samples and with a degenerate
determinant (43_solver.md R157 to R160). -/

namespace Sys2Proof.Machine

/-! The effects of ACC, RECIP and COEF, given what their functions answer -/

/-- The effect of ACC (R136). -/
def accEffect (a : AccResult) : Effect where
  reads := xRegs
  writes := [(.sumx, a.sumx), (.sumxx, a.sumxx), (.det, a.det)]
  flags := [(.ovf, a.ovf), (.degen, a.degen)]

/-- The effect of RECIP (R114). -/
def recipEffect (q : RecipResult) : Effect where
  reads := [.det]
  writes := [(.ksh, kshOf q.k), (.seed, q.seed), (.rcp, q.x)]
  flags := [(.ood, q.ood), (.ovf, q.ovf)]

/-- The effect of COEF (R153). -/
def coefEffect (c : CoefResult) : Effect where
  reads := xRegs ++ yRegs ++ [.sumx, .sumxx, .rcp]
  writes := [(.cc, c.c), (.cd, c.d), (.ce, c.e), (.th0, c.th0), (.th1, c.th1)]
  flags := [(.ovf, c.ovf)]

theorem exec_acc_effect {s : State} {a : AccResult} (h : acc s.regs.x = a) :
    exec .acc s = finish (accEffect a) s := by
  subst h
  rfl

theorem exec_recip_effect {s : State} {q : RecipResult} (h : recip s.regs.det = q) :
    exec .recip s = finish (recipEffect q) s := by
  subst h
  rfl

theorem exec_coef_effect {s : State} {c : CoefResult}
    (h : coef s.regs.x s.regs.y s.regs.sumx s.regs.sumxx s.regs.rcp = c) :
    exec .coef s = finish (coefEffect c) s := by
  subst h
  rfl

/-- FIT with its samples written completes with the answers of its three stages (R157, R158). -/
theorem exec_fit_of_written {s : State} (hx : ∀ i : Fin 8, s.written.x[i] = true)
    (hy : ∀ i : Fin 8, s.written.y[i] = true) {a : AccResult} {q : RecipResult} {c : CoefResult}
    (ha : acc s.regs.x = a) (hq : recip a.det = q)
    (hc : coef s.regs.x s.regs.y a.sumx a.sumxx q.x = c) :
    exec .fit s = .next (s.complete (fitEffect a q c).writes (fitEffect a q c).flags) :=
  (execFit_stages s ha hq hc).trans (finish_specified (specified_samples hx hy))

/-! FIT as three commands (R158) -/

theorem writeRegs_append (ws ws' : List (Reg × Word)) (s : State) :
    s.writeRegs (ws ++ ws') = (s.writeRegs ws).writeRegs ws' := by
  induction ws generalizing s with
  | nil => rfl
  | cons w ws ih => exact ih (s.writeReg w.1 w.2)

/-- The state after the completion of `e` with its own results (R45). -/
def State.after (s : State) (e : Effect) : State := s.complete e.writes e.flags

/-- What RECIP and COEF read after the stages before them: DET is that of ACC; the samples are those
of `s`, the sums are those of ACC and the reciprocal is that of RECIP. -/
theorem after_stages_inputs (s : State) (a : AccResult) (q : RecipResult) :
    (s.after (accEffect a)).regs.det = a.det ∧
    ((s.after (accEffect a)).after (recipEffect q)).regs.x = s.regs.x ∧
    ((s.after (accEffect a)).after (recipEffect q)).regs.y = s.regs.y ∧
    ((s.after (accEffect a)).after (recipEffect q)).regs.sumx = a.sumx ∧
    ((s.after (accEffect a)).after (recipEffect q)).regs.sumxx = a.sumxx ∧
    ((s.after (accEffect a)).after (recipEffect q)).regs.rcp = q.x := by
  simp [State.after, accEffect, recipEffect, State.writeRegs, RegFile.set]

/-- What they read has been written. -/
theorem after_stages_specified {s : State} (hx : ∀ i : Fin 8, s.written.x[i] = true)
    (hy : ∀ i : Fin 8, s.written.y[i] = true) (a : AccResult) (q : RecipResult) :
    (s.after (accEffect a)).specified (recipEffect q).reads = true ∧
    ((s.after (accEffect a)).after (recipEffect q)).specified
      (xRegs ++ yRegs ++ [.sumx, .sumxx, .rcp]) = true := by
  have hwritten : ((s.after (accEffect a)).after (recipEffect q)).written =
      { s.written with
        sumx := true, sumxx := true, det := true, ksh := true, seed := true, rcp := true } := by
    simp [State.after, accEffect, recipEffect, State.writeRegs, RegFile.set]
  refine ⟨specified_single ?_, ?_⟩
  · simp [State.after, accEffect, State.writeRegs]
  · rw [specified_append,
      specified_samples (by rw [hwritten]; exact hx) (by rw [hwritten]; exact hy)]
    simp [State.specified, hwritten, RegFile.get]

/-- Three completions in a row write as one completion of all their writes. -/
theorem after_stages_registers (s : State) (a : AccResult) (q : RecipResult) (c : CoefResult) :
    (s.after (fitEffect a q c)).regs =
      (((s.after (accEffect a)).after (recipEffect q)).after (coefEffect c)).regs ∧
    (s.after (fitEffect a q c)).written =
      (((s.after (accEffect a)).after (recipEffect q)).after (coefEffect c)).written := by
  have hsplit : (fitEffect a q c).writes =
      (accEffect a).writes ++ (recipEffect q).writes ++ (coefEffect c).writes := rfl
  obtain ⟨hregs, hwritten⟩ := writeRegs_congr (recipEffect q).writes
    (s := s.after (accEffect a)) (s' := s.writeRegs (accEffect a).writes) rfl rfl
  rw [State.after, complete_regs, complete_written, hsplit, writeRegs_append, writeRegs_append]
  exact writeRegs_congr _ hregs hwritten

/-- The flags of FIT are the OR of those of its stages (R157). -/
theorem statusCompleted_fit (a : AccResult) (q : RecipResult) (c : CoefResult) :
    statusCompleted (fitEffect a q c).flags =
      statusCompleted (accEffect a).flags ||| statusCompleted (recipEffect q).flags |||
        statusCompleted (coefEffect c).flags := by
  simp only [fitEffect, accEffect, recipEffect, coefEffect]
  generalize a.ovf = oa, a.degen = g, q.ood = d, q.ovf = oq, c.ovf = oc
  decide +revert

/-- Settles O31: each command reads what the one before wrote, so their writes in order are those of
FIT. -/
theorem fitIsAccThenRecipThenCoef : Obligations.FitIsAccThenRecipThenCoef := by
  intro s hx hy
  obtain ⟨a, q, c, ha, hq, hc⟩ := exists_fit_stages s.regs.x s.regs.y
  obtain ⟨hdet, hx', hy', hsumx, hsumxx, hrcp⟩ := after_stages_inputs s a q
  obtain ⟨hreadr, hreadc⟩ := after_stages_specified hx hy a q
  obtain ⟨hregs, hwritten⟩ := after_stages_registers s a q c
  have hq' : recip (s.after (accEffect a)).regs.det = q := by rw [hdet, hq]
  have hc' := hc
  rw [← hx', ← hy', ← hsumx, ← hsumxx, ← hrcp] at hc'
  have hacc : exec .acc s = .next (s.after (accEffect a)) :=
    (exec_acc_effect ha).trans (finish_specified ((specified_xRegs s).mpr hx))
  have hrecip : exec .recip (s.after (accEffect a)) =
      .next ((s.after (accEffect a)).after (recipEffect q)) :=
    (exec_recip_effect hq').trans (finish_specified hreadr)
  have hcoef : exec .coef ((s.after (accEffect a)).after (recipEffect q)) =
      .next (((s.after (accEffect a)).after (recipEffect q)).after (coefEffect c)) :=
    (exec_coef_effect hc').trans (finish_specified hreadc)
  exact ⟨_, _, _, _, hacc, hrecip, hcoef, exec_fit_of_written hx hy ha hq hc, hregs,
    hwritten, statusCompleted_fit a q c⟩

/-! A permutation of the samples (R160) -/

theorem tree8_fst_of_perm {v v' : Vector Word 8} {π : Equiv.Perm (Fin 8)}
    (h : ∀ i : Fin 8, v'[i] = v[π i]) : (tree8 v').1 = (tree8 v).1 := by
  rw [tree8_fst_eq_wrap32_sum, tree8_fst_eq_wrap32_sum, ← Equiv.sum_comp π fun i => sint v[i]]
  simp only [h]

/-- The sums, the determinant and DEGEN do not depend on the order; OVF can. -/
theorem acc_of_perm {x x' : Vector Word 8} {π : Equiv.Perm (Fin 8)}
    (h : ∀ i : Fin 8, x'[i] = x[π i]) :
    (acc x').sumx = (acc x).sumx ∧ (acc x').sumxx = (acc x).sumxx ∧ (acc x').det = (acc x).det ∧
    (acc x').degen = (acc x).degen := by
  obtain ⟨hsumx, hsumxx, hdet, hdegen⟩ := acc_values x
  obtain ⟨hsumx', hsumxx', hdet', hdegen'⟩ := acc_values x'
  have hx : (acc x').sumx = (acc x).sumx := by
    rw [hsumx, hsumx', tree8_fst_of_perm h]
  have hxx : (acc x').sumxx = (acc x).sumxx := by
    rw [hsumxx, hsumxx']
    exact tree8_fst_of_perm (π := π) fun i => by simp only [perLane_get, h]
  have hd : (acc x').det = (acc x).det := by rw [hdet, hdet', hx, hxx]
  exact ⟨hx, hxx, hd, by rw [hdegen, hdegen', hd]⟩

/-- The coefficients and the sums of the lane terms do not depend on the order of the pairs. -/
theorem coef_of_perm {x x' y y' : Vector Word 8} {π : Equiv.Perm (Fin 8)}
    (hx : ∀ i : Fin 8, x'[i] = x[π i]) (hy : ∀ i : Fin 8, y'[i] = y[π i]) {sumx sumxx s : Word}
    {c c' : CoefResult} (hc : coef x y sumx sumxx s = c) (hc' : coef x' y' sumx sumxx s = c') :
    c'.c = c.c ∧ c'.d = c.d ∧ c'.e = c.e ∧ c'.th0 = c.th0 ∧ c'.th1 = c.th1 := by
  obtain ⟨hcc, hcd, hce, hth0, hth1⟩ := coef_values hc
  obtain ⟨hcc', hcd', hce', hth0', hth1'⟩ := coef_values hc'
  rw [← hcc] at hcc'
  rw [← hcd] at hcd'
  rw [← hce] at hce'
  refine ⟨hcc', hcd', hce', ?_, ?_⟩
  · rw [hth0, hth0', hcc', hcd']
    exact tree8_fst_of_perm (π := π) fun i => by simp only [perLane_get, hx, hy]
  · rw [hth1, hth1', hcd', hce']
    exact tree8_fst_of_perm (π := π) fun i => by simp only [perLane_get, hx, hy]

/-- The same writes leave the same in a register they name, whatever the states held. -/
theorem writeRegs_get_eq {ws : List (Reg × Word)} (hn : (ws.map Prod.fst).Nodup) {r : Reg}
    (hr : r ∈ ws.map Prod.fst) (s s' : State) :
    (s.writeRegs ws).regs.get r = (s'.writeRegs ws).regs.get r := by
  obtain ⟨⟨r, v⟩, hmem, rfl⟩ := List.mem_map.mp hr
  exact (writeRegs_result ws s hn r v hmem).1.trans (writeRegs_result ws s' hn r v hmem).1.symm

/-- A flag after a completion is the value it is listed with, or 0 (R21). -/
theorem complete_flag (s : State) (ws : List (Reg × Word)) (fs : List (Flag × Bool)) (f : Flag) :
    (s.complete ws fs).flag f = fs.any fun g => g.2 && decide (g.1 = f) := by
  have hinj : ∀ g : Flag, g.bit = f.bit ↔ g = f := by
    intro g
    cases g <;> cases f <;> simp [Flag.bit]
  have hdone : decide (f.bit = 1) = false := by cases f <;> rfl
  simp only [State.flag, complete_status, statusCompleted_bit, hdone, Bool.false_or, hinj]

theorem complete_fit_flags (s : State) (a : AccResult) (q : RecipResult) (c : CoefResult) :
    (s.complete (fitEffect a q c).writes (fitEffect a q c).flags).flag .ood = q.ood ∧
    (s.complete (fitEffect a q c).writes (fitEffect a q c).flags).flag .degen = a.degen := by
  simp [complete_flag, fitEffect]

/-- Settles O32: the sums do not depend on the order, so neither does what the later stages take. -/
theorem fitIgnoresTheOrderOfTheSamples : Obligations.FitIgnoresTheOrderOfTheSamples := by
  intro π s s' hwx hwy hwx' hwy' hx hy
  obtain ⟨hsumx, hsumxx, hdet, hdegen⟩ := acc_of_perm hx
  obtain ⟨a, q, c, ha, hq, hc⟩ := exists_fit_stages s.regs.x s.regs.y
  obtain ⟨a', q', c', ha', hq', hc'⟩ := exists_fit_stages s'.regs.x s'.regs.y
  rw [ha, ha'] at hsumx hsumxx hdet hdegen
  have hqq : q' = q := by rw [← hq, ← hq', hdet]
  have hcoef := hc
  rw [← hsumx, ← hsumxx, ← hqq] at hcoef
  obtain ⟨hcc, hcd, hce, hth0, hth1⟩ := coef_of_perm hx hy hcoef hc'
  have hwrites : (fitEffect a' q' c').writes = (fitEffect a q c).writes := by
    simp only [fitEffect, hsumx, hsumxx, hdet, hqq, hcc, hcd, hce, hth0, hth1]
  obtain ⟨hood, hdeg⟩ := complete_fit_flags s a q c
  obtain ⟨hood', hdeg'⟩ := complete_fit_flags s' a' q' c'
  refine ⟨_, _, exec_fit_of_written hwx hwy ha hq hc,
    exec_fit_of_written hwx' hwy' ha' hq' hc', fun r hr => ?_,
    hood'.trans (hqq ▸ hood.symm), (hdeg'.trans hdegen).trans hdeg.symm⟩
  rw [complete_regs, complete_regs, hwrites]
  exact writeRegs_get_eq (ws := (fitEffect a q c).writes) (writesOf_nodup .fit) hr s' s

/-! A degenerate fit (R159) -/

/-- At a zero determinant the reciprocal is 8.0 with OOD (R117). -/
theorem recip_zero :
    recip 0 = { k := 0, seed := 0x00010000#32, x := 0x00080000#32, ood := true, ovf := false } := by
  decide

/-- Settles O33: a zero determinant is DEGEN, and the reciprocal of zero is 8.0 with OOD. -/
theorem degenerateFitGoesOn : Obligations.DegenerateFitGoesOn := by
  intro s hx hy hdet
  have hdegen : (acc s.regs.x).degen = true := by
    obtain ⟨-, -, -, hdegen⟩ := acc_values s.regs.x
    rw [hdegen, hdet]
    rfl
  have hq : recip (acc s.regs.x).det = _ := (congrArg recip hdet).trans recip_zero
  obtain ⟨hood, hdeg⟩ := complete_fit_flags s (acc s.regs.x) _ _
  exact ⟨_, exec_fit_of_written hx hy rfl hq rfl, hdeg.trans hdegen, hood, hdet, rfl, rfl⟩

end Sys2Proof.Machine
end

section
/-! PROOFS. What a command depends on, and which flags stand together (00_scope.md R4,
60_exceptions.md R193). -/

namespace Sys2Proof.Machine

/-- Files that agree on the eight samples hold the same array. -/
theorem x_eq_of_xRegs {f g : RegFile Word} (h : ∀ r ∈ xRegs, f.get r = g.get r) : f.x = g.x :=
  Vector.ext fun i hi => h (.x ⟨i, hi⟩) (List.mem_map_of_mem (mem_lanes ⟨i, hi⟩))

theorem y_eq_of_yRegs {f g : RegFile Word} (h : ∀ r ∈ yRegs, f.get r = g.get r) : f.y = g.y :=
  Vector.ext fun i hi => h (.y ⟨i, hi⟩) (List.mem_map_of_mem (mem_lanes ⟨i, hi⟩))

/-- Two states that agree on what a command reads complete the same effect (R4). -/
theorem exec_effect_of_reads (i : Instr) {s s' : State}
    (h : ∀ r ∈ readsOf i, s.regs.get r = s'.regs.get r) :
    ∃ e : Effect, exec i s = finish e s ∧ exec i s' = finish e s' ∧ e.reads = readsOf i ∧
      e.writes.map Prod.fst = writesOf i := by
  cases i with
  | nop | onehot => exact ⟨_, rfl, rfl, rfl, rfl⟩
  | add | sub | mul | cmp =>
    have hopa : s.regs.opa = s'.regs.opa := h .opa (by simp [readsOf])
    have hopb : s.regs.opb = s'.regs.opb := h .opb (by simp [readsOf])
    simp only [exec, execAdd, execSub, execMul, execCmp, hopa, hopb]
    exact ⟨_, rfl, rfl, rfl, rfl⟩
  | shl n =>
    have hopa : s.regs.opa = s'.regs.opa := h .opa (by simp [readsOf])
    simp only [exec, execShl, hopa]
    exact ⟨_, rfl, rfl, rfl, rfl⟩
  | recip =>
    have hdet : s.regs.det = s'.regs.det := h .det (by simp [readsOf])
    exact ⟨_, exec_recip_effect (congrArg recip hdet), exec_recip_effect rfl, rfl, rfl⟩
  | acc =>
    have hx : s.regs.x = s'.regs.x := x_eq_of_xRegs h
    exact ⟨_, exec_acc_effect (congrArg acc hx), exec_acc_effect rfl, rfl, rfl⟩
  | coef =>
    simp only [readsOf, List.forall_mem_append] at h
    obtain ⟨⟨hx, hy⟩, hrest⟩ := h
    have hsumx : s.regs.sumx = s'.regs.sumx := hrest .sumx (by simp)
    have hsumxx : s.regs.sumxx = s'.regs.sumxx := hrest .sumxx (by simp)
    have hrcp : s.regs.rcp = s'.regs.rcp := hrest .rcp (by simp)
    refine ⟨_, exec_coef_effect ?_, exec_coef_effect rfl, rfl, rfl⟩
    rw [x_eq_of_xRegs hx, y_eq_of_yRegs hy, hsumx, hsumxx, hrcp]
  | predict =>
    simp only [readsOf, List.forall_mem_append] at h
    obtain ⟨hx, hrest⟩ := h
    have hth0 : s.regs.th0 = s'.regs.th0 := hrest .th0 (by simp)
    have hth1 : s.regs.th1 = s'.regs.th1 := hrest .th1 (by simp)
    simp only [exec, execPredict, x_eq_of_xRegs hx, hth0, hth1]
    exact ⟨_, rfl, rfl, rfl, rfl⟩
  | fit =>
    simp only [readsOf, List.forall_mem_append] at h
    obtain ⟨hx, hy⟩ := h
    simp only [exec, execFit, x_eq_of_xRegs hx, y_eq_of_yRegs hy]
    exact ⟨_, rfl, rfl, rfl, rfl⟩

/-- Settles O35: both states complete the same effect, with the same writes and flags. -/
theorem commandsDependOnlyOnTheirReads : Obligations.CommandsDependOnlyOnTheirReads := by
  intro i s s' hready hready' hreads
  obtain ⟨e, he, he', hr, hw⟩ := exec_effect_of_reads i hreads
  refine ⟨_, _, exec_ready hready he hr, exec_ready hready' he' hr, fun r hmem => ?_, rfl⟩
  rw [← hw] at hmem
  exact writeRegs_get_eq (hw ▸ writesOf_nodup i) hmem s s'

/-! Which flags stand together (R193) -/

/-- An idle core with every register written, which holds `f`. -/
def holding (f : RegFile Word) : State :=
  { State.reset with regs := f, written := RegFile.const true }

theorem holding_ready (f : RegFile Word) (i : Instr) : (holding f).ready i = true :=
  (specified_iff _ _).mpr fun r _ => RegFile.get_const true r

/-- With its operands written a command completes with the flags of its own effect. -/
theorem exec_ready_eq {i : Instr} {s t : State} {e : Effect} (hready : s.ready i = true)
    (he : exec i s = finish e s) (hr : e.reads = readsOf i) (h : exec i s = .next t) :
    t = s.complete e.writes e.flags := by
  have hexec := exec_ready hready he hr
  rw [h] at hexec
  injection hexec

/-- In FIT DEGEN comes with OOD: a zero determinant is outside the domain (R113, R135). -/
theorem fit_degen_ood {s t : State} (hready : s.ready .fit = true) (h : exec .fit s = .next t)
    (hdegen : t.flag .degen = true) : t.flag .ood = true := by
  obtain ⟨a, q, c, ha, hq, hc⟩ := exists_fit_stages s.regs.x s.regs.y
  obtain ⟨hood, hdeg⟩ := complete_fit_flags s a q c
  rw [exec_ready_eq hready (execFit_stages s ha hq hc) rfl h] at hdegen ⊢
  have hdet : a.det = 0 := by
    obtain ⟨-, -, -, hzero⟩ := acc_values s.regs.x
    rw [ha, ← hdeg, hdegen] at hzero
    exact of_decide_eq_true hzero.symm
  rw [hood, ← hq, hdet, recip_zero]

/-- A FIT with OOD and without DEGEN: the squares floor to 0, so DET is negative. -/
def shortSamples : RegFile Word :=
  { RegFile.const 0 with
    x := #v[0x00#32, 0x10#32, 0x20#32, 0x30#32, 0x40#32, 0x50#32, 0x60#32, 0x70#32] }

theorem fit_shortSamples :
    (recip (acc shortSamples.x).det).ood = true ∧ (acc shortSamples.x).degen = false := by decide

theorem complete_recip_flags (s : State) (q : RecipResult) :
    (s.complete (recipEffect q).writes (recipEffect q).flags).flag .ood = q.ood ∧
    (s.complete (recipEffect q).writes (recipEffect q).flags).flag .ovf = q.ovf ∧
    (s.complete (recipEffect q).writes (recipEffect q).flags).flag .degen = false := by
  simp [complete_flag, recipEffect]

/-- From 16384.0 on the scan overflows, and the refinement keeps the bit (R112, R113). -/
theorem recip_ovf_of_ge_bound {d : Word} (h : 0x40000000 ≤ sint d) : (recip d).ovf = true := by
  simp [recip, scan_of_ge_bound h, refine]

/-- RECIP on a register file that holds `d` in DET. -/
theorem exec_recip_holding (d : Word) :
    ∃ t, exec .recip (holding { RegFile.const 0 with det := d }) = .next t ∧
      t.flag .ovf = (recip d).ovf :=
  ⟨_, exec_ready (holding_ready _ .recip) (exec_recip_effect rfl) rfl,
    (complete_recip_flags _ _).2.1⟩

/-- Settles O36: ILL stands alone; DEGEN implies OOD because zero is outside the domain; the
converse fails on `shortSamples`; RECIP overflows at -16384.0 and not at 0; CMP follows the
trichotomy. -/
theorem flagCombinations : Obligations.FlagCombinations := by
  refine ⟨fun s => statusCompleted_ill, fun s t => fit_degen_ood, ?oodAlone, ?recip, ?recipOvf,
    ?recipFits, ?cmp⟩
  case oodAlone =>
    obtain ⟨hood, hdegen⟩ := fit_shortSamples
    obtain ⟨hood', hdegen'⟩ := complete_fit_flags (holding shortSamples) (acc shortSamples.x)
      (recip (acc shortSamples.x).det) _
    exact ⟨_, _, holding_ready shortSamples .fit,
      exec_ready (holding_ready shortSamples .fit) (execFit_stages _ rfl rfl rfl) rfl,
      hood'.trans hood, hdegen'.trans hdegen⟩
  case recip =>
    intro s t hready h
    obtain ⟨hood, hovf, hdegen⟩ := complete_recip_flags s (recip s.regs.det)
    rw [exec_ready_eq hready (exec_recip_effect rfl) rfl h, hood, hovf, hdegen, recip_ood_iff]
    exact ⟨fun hge => ⟨.inr ((not_fxGt_scan_iff _).mpr hge), recip_ovf_of_ge_bound hge⟩, .inl, rfl⟩
  case recipOvf =>
    obtain ⟨t, ht, hovf⟩ := exec_recip_holding 0xC0000000#32
    exact ⟨_, t, holding_ready _ .recip, by decide, ht, hovf.trans (by decide)⟩
  case recipFits =>
    obtain ⟨t, ht, hovf⟩ := exec_recip_holding 0
    exact ⟨_, t, holding_ready _ .recip, by decide, ht, hovf.trans (by rw [recip_zero])⟩
  case cmp =>
    intro s t hready h
    rw [exec_ready_eq (i := .cmp) hready rfl rfl h, complete_status, statusCompleted_cmp]
    split_ifs
    · exact .inl rfl
    · exact .inr (.inl rfl)
    · exact .inr (.inr rfl)

end Sys2Proof.Machine
end

section
/-! PROOFS. The value of the reciprocal estimate (41_reciprocal.md R110 to R117): a refinement step
as integer arithmetic, the error it leaves, and the three steps from the seed. -/

namespace Sys2Proof.Machine

/-! A refinement step on the signed readings (R112) -/

/-- One refinement step `x·(2 − D·x)` of scaled integers, both products floored (R112). -/
def newton (d x : Int) : Int := x * (131072 - d * x / 65536) / 65536

/-- The range in which no primitive of a refinement step overflows: `x` at most 4.0 and `D·x` below
2.0. -/
structure StepFits (d x : Int) : Prop where
  d_nonneg : 0 ≤ d
  x_nonneg : 0 ≤ x
  x_le : x ≤ 262144
  product_lt : d * x < 8589934592

/-- The second factor of a step lies between 0 and 2.0. -/
theorem StepFits.factor {d x : Int} (h : StepFits d x) :
    0 ≤ 131072 - d * x / 65536 ∧ 131072 - d * x / 65536 ≤ 131072 := by
  have hlo : 0 ≤ d * x := mul_nonneg h.d_nonneg h.x_nonneg
  have hhi := h.product_lt
  omega

/-- A step at most doubles the estimate. -/
theorem StepFits.newton_range {d x : Int} (h : StepFits d x) :
    0 ≤ newton d x ∧ newton d x ≤ 2 * x := by
  obtain ⟨hlo, hhi⟩ := h.factor
  have hprod : 0 ≤ x * (131072 - d * x / 65536) := mul_nonneg h.x_nonneg hlo
  have hprod' : x * (131072 - d * x / 65536) ≤ x * 131072 :=
    mul_le_mul_of_nonneg_left hhi h.x_nonneg
  rw [newton]
  omega

theorem wrapped_of_fits {z : Int} (hlo : -2147483648 ≤ z) (hhi : z ≤ 2147483647) :
    (wrapped z).2 = false ∧ sint (wrapped z).1 = z := by
  have hfits : (wrapped z).2 = false := by
    rw [← Bool.not_eq_true, wrapped_ovf_iff, not_not]
    exact ⟨hlo, hhi⟩
  exact ⟨hfits, (wrapped_fits_iff z).mp hfits⟩

/-- In its range a refinement step is exact but for the floors, and flags nothing. -/
theorem refineStep_of_fits {d x : Word} (h : StepFits (sint d) (sint x)) :
    (refineStep d x).2 = false ∧ sint (refineStep d x).1 = newton (sint d) (sint x) := by
  obtain ⟨hulo, huhi⟩ := h.factor
  obtain ⟨hnlo, hnhi⟩ := h.newton_range
  have hxle := h.x_le
  have htwo : sint two = 131072 := by decide
  have ht : (fxMul d x).2 = false ∧ sint (fxMul d x).1 = sint d * sint x / 65536 :=
    wrapped_of_fits (by omega) (by omega)
  obtain ⟨htovf, htval⟩ := ht
  have hu : (fxSub two (fxMul d x).1).2 = false ∧
      sint (fxSub two (fxMul d x).1).1 = 131072 - sint d * sint x / 65536 := by
    rw [fxSub, htval, htwo]
    exact wrapped_of_fits (by omega) (by omega)
  obtain ⟨huovf, huval⟩ := hu
  have hr : (fxMul x (fxSub two (fxMul d x).1).1).2 = false ∧
      sint (fxMul x (fxSub two (fxMul d x).1).1).1 = newton (sint d) (sint x) := by
    rw [fxMul, huval]
    exact wrapped_of_fits (by rw [newton] at hnlo; omega) (by rw [newton] at hnhi; omega)
  simp [refineStep, htovf, huovf, hr]

/-- Three steps in range are three steps of scaled integers; OVF is that of the scan. -/
theorem refine_of_fits {d x : Word} {x1 x2 : Int} (h0 : StepFits (sint d) (sint x))
    (hx1 : newton (sint d) (sint x) = x1) (h1 : StepFits (sint d) x1)
    (hx2 : newton (sint d) x1 = x2) (h2 : StepFits (sint d) x2) (o : Bool) :
    (refine d 3 (x, o)).2 = o ∧ sint (refine d 3 (x, o)).1 = newton (sint d) x2 := by
  obtain ⟨hovf1, hval1⟩ := refineStep_of_fits h0
  rw [hx1] at hval1
  rw [← hval1] at h1 hx2
  obtain ⟨hovf2, hval2⟩ := refineStep_of_fits h1
  rw [hx2] at hval2
  rw [← hval2] at h2 ⊢
  obtain ⟨hovf3, hval3⟩ := refineStep_of_fits h2
  simp [refine, hovf1, hovf2, hovf3, hval3]

/-! The error of a step: `2^32 − D·x` for the estimate `x` -/

/-- The floors of a step, as bounds on its two products. -/
theorem newton_floors (d x : Int) :
    65536 * (d * x / 65536) ≤ d * x ∧ d * x - 65535 ≤ 65536 * (d * x / 65536) ∧
    65536 * newton d x ≤ x * (131072 - d * x / 65536) ∧
    x * (131072 - d * x / 65536) - 65535 ≤ 65536 * newton d x := by
  rw [newton]
  omega

/-- The exact step never exceeds the reciprocal, and the inner floor adds less than two ulp. -/
theorem newton_upper {d x : Int} (hd : 0 < d) (hx : 0 ≤ x) (hx' : x ≤ 131074) :
    d * newton d x < 4294967296 + 2 * d := by
  obtain ⟨-, ht, hm, -⟩ := newton_floors d x
  generalize d * x / 65536 = t at ht hm
  generalize newton d x = m at hm ⊢
  have hfactor : x * (65536 * (131072 - t)) ≤ x * (8589934592 - d * x + 65535) :=
    mul_le_mul_of_nonneg_left (by linarith) hx
  have hscaled : d * (4294967296 * m) ≤ d * (x * (8589934592 - d * x + 65535)) :=
    mul_le_mul_of_nonneg_left (by linarith) hd.le
  have hfloor : d * (x * 65535) ≤ d * (131074 * 65535) :=
    mul_le_mul_of_nonneg_left (by linarith) hd.le
  have hsquare : 0 ≤ (4294967296 - d * x) ^ 2 := sq_nonneg _
  linarith

/-- A step squares the relative error; the outer floor takes less than one ulp. -/
theorem newton_lower {d x : Int} (hd : 0 < d) (hx : 0 ≤ x) :
    4294967296 * (4294967296 - d * newton d x) <
      (4294967296 - d * x) ^ 2 + 4294967296 * d := by
  obtain ⟨ht, -, -, hm⟩ := newton_floors d x
  generalize d * x / 65536 = t at ht hm
  generalize newton d x = m at hm ⊢
  have hfactor : x * (8589934592 - d * x) ≤ x * (65536 * (131072 - t)) :=
    mul_le_mul_of_nonneg_left (by linarith) hx
  have hscaled : d * (x * (8589934592 - d * x) - 4294967296 + 65536) ≤ d * (4294967296 * m) :=
    mul_le_mul_of_nonneg_left (by linarith) hd.le
  linarith

/-! Three steps on 0.5 ≤ D < 16384.0 -/

/-- An estimate that a step on 0.5 ≤ D < 16384.0 can leave: not above the reciprocal by two ulp. -/
structure Estimate (d x : Int) : Prop where
  nonneg : 0 ≤ x
  upper : d * x < 4294967296 + 2 * d

theorem Estimate.le {d x : Int} (h : Estimate d x) (hd : 32768 ≤ d) : x ≤ 131073 := by
  have hupper := h.upper
  by_contra hgt
  have hprod : 32768 * 131072 ≤ d * (x - 2) :=
    mul_le_mul hd (by omega) (by norm_num) (by omega)
  linarith

theorem Estimate.fits {d x : Int} (h : Estimate d x) (hd : 32768 ≤ d) (hd' : d ≤ 1073741823) :
    StepFits d x :=
  ⟨by omega, h.nonneg, by have := h.le hd; omega, by have := h.upper; omega⟩

theorem Estimate.next {d x : Int} (h : Estimate d x) (hd : 32768 ≤ d) (hd' : d ≤ 1073741823) :
    Estimate d (newton d x) :=
  ⟨(h.fits hd hd').newton_range.1,
    newton_upper (by omega) h.nonneg (by have := h.le hd; omega)⟩

/-- From a seed within a factor of 2 below the reciprocal the relative error of three steps is that
of 2^-8, and two ulp for the floors. -/
theorem newton_three {d x : Int} (hd : 32768 ≤ d) (hd' : d ≤ 1073741823) (hx : Estimate d x)
    (hlo : 2147483648 ≤ d * x) (hhi : d * x ≤ 4294967296) :
    256 * (4294967296 - d * newton d (newton d (newton d x))) < 4294967296 + 512 * d := by
  have hpos : 0 < d := by omega
  have h1 := hx.next hd hd'
  have h2 := h1.next hd hd'
  have hdd : d ^ 2 ≤ 1073741824 * d := by
    rw [sq]
    exact mul_le_mul_of_nonneg_right (by omega) hpos.le
  have herr1 : 4 * (4294967296 - d * newton d x) < 4294967296 + 4 * d := by
    have hsq : (4294967296 - d * x) ^ 2 ≤ 2147483648 ^ 2 := sq_le_sq' (by omega) (by omega)
    linarith [newton_lower hpos hx.nonneg]
  have herr2 : 4 * (4294967296 - d * newton d (newton d x)) < 1073741824 + 7 * d := by
    have hsq : (4294967296 - d * newton d x) ^ 2 ≤ (1073741824 + d) ^ 2 :=
      sq_le_sq' (by have := h1.upper; omega) (by omega)
    linarith [newton_lower hpos h1.nonneg]
  have hsq : (4 * (4294967296 - d * newton d (newton d x))) ^ 2 ≤ (1073741824 + 7 * d) ^ 2 :=
    sq_le_sq' (by have := h2.upper; omega) herr2.le
  linarith [newton_lower hpos h2.nonneg]

/-! The seed (R110, R111) and the whole estimate -/

/-- On 0.5 ≤ D < 16384.0 the scan stops at the first power of two above `D`, which is at most
twice `D`. -/
theorem scan_of_accurate {d : Word} (hlo : 0x8000 ≤ sint d) (hhi : sint d ≤ 0x3FFFFFFF) :
    ∃ j ≤ 14, (2 : Int) ^ (15 + j) ≤ sint d ∧ sint d < (2 : Int) ^ (16 + j) ∧
      scan d = scannedTo j := by
  have hex : ∃ j : Nat, sint d < (2 : Int) ^ (16 + j) := ⟨14, by norm_num; omega⟩
  obtain ⟨j, habove, hmin⟩ : ∃ j, sint d < (2 : Int) ^ (16 + j) ∧
      ∀ i < j, (2 : Int) ^ (16 + i) ≤ sint d :=
    ⟨Nat.find hex, Nat.find_spec hex, fun i hi => not_lt.mp (Nat.find_min hex hi)⟩
  have hj : j ≤ 14 := by
    by_contra hgt
    have hbelow : (2 : Int) ^ (16 + 14) ≤ sint d := hmin 14 (by omega)
    norm_num at hbelow
    omega
  refine ⟨j, hj, ?_, habove, scan_of_first_above hj hmin habove⟩
  cases j with
  | zero => exact hlo
  | succ i =>
    have hprev : 15 + (i + 1) = 16 + i := by omega
    rw [hprev]
    exact hmin i (by omega)

theorem sint_seedOf {j : Nat} (hj : j ≤ 14) : sint (seedOf j) = 2 ^ (16 - j) :=
  sint_fxOnehot (by omega)

/-- The seed is within a factor of 2 below the reciprocal. -/
theorem seed_product {d : Int} {j : Nat} (hj : j ≤ 14) (hlo : (2 : Int) ^ (15 + j) ≤ d)
    (hhi : d < (2 : Int) ^ (16 + j)) :
    2147483648 ≤ d * 2 ^ (16 - j) ∧ d * 2 ^ (16 - j) < 4294967296 := by
  have hpos : (0 : Int) < 2 ^ (16 - j) := by positivity
  have hlo' : (2 : Int) ^ (15 + j) * 2 ^ (16 - j) = 2147483648 := by
    rw [← pow_add, show 15 + j + (16 - j) = 31 by omega]
    norm_num
  have hhi' : (2 : Int) ^ (16 + j) * 2 ^ (16 - j) = 4294967296 := by
    rw [← pow_add, show 16 + j + (16 - j) = 32 by omega]
    norm_num
  rw [← hlo', ← hhi']
  exact ⟨mul_le_mul_of_nonneg_right hlo hpos.le, mul_lt_mul_of_pos_right hhi hpos⟩

/-- What `recip` answers, given what the scan leaves (R116). -/
theorem recip_of_scan {d : Word} {c : ScanResult} (h : scan d = c) :
    (recip d).k = c.k ∧ (recip d).seed = seedOf c.k ∧
    (recip d).x = (refine d 3 (seedOf c.k, c.ovf)).1 ∧
    (recip d).ovf = (refine d 3 (seedOf c.k, c.ovf)).2 := by
  subst h
  exact ⟨rfl, rfl, rfl, rfl⟩

theorem recip_ood_false_iff (d : Word) :
    (recip d).ood = false ↔ 1 ≤ sint d ∧ sint d ≤ 0x3FFFFFFF := by
  rw [← Bool.not_eq_true, (oodIsOutsideTheDomain d).1, not_not]

/-- The product of two values, in units of 2^-32. -/
theorem val_mul_val (a b : Word) :
    val a * val b = ((sint b * sint a : Int) : Rat) / 4294967296 := by
  rw [val, val]
  push_cast
  ring

/-- Below the truncated reciprocal by at most the relative error and two ulp, above it by at most
two ulp (R117). -/
theorem truncated_error {d x : Int} (hd : 0 < d) (hupper : d * x < 4294967296 + 2 * d)
    (herr : 256 * (4294967296 - d * x) < 4294967296 + 512 * d) :
    -2 ≤ 4294967296 / d - x ∧ 256 * (4294967296 / d - x) ≤ 4294967296 / d + 512 := by
  have hquot : d * (4294967296 / d) ≤ 4294967296 := Int.mul_ediv_self_le hd.ne'
  constructor
  · have hle : x - 2 ≤ 4294967296 / d := (Int.le_ediv_iff_mul_le hd).mpr (by linarith)
    omega
  · have hlt : d * (255 * (4294967296 / d)) < d * (256 * x + 512) := by linarith
    have hlt' := lt_of_mul_lt_mul_left hlt hd.le
    omega

/-- Settles O23: the seed is within a factor of 2, each step squares the relative error, and the
floors cost at most two ulp on either side. -/
theorem reciprocalIsAccurate : Obligations.ReciprocalIsAccurate := by
  intro d hd hd'
  obtain ⟨j, hj, hlo, hhi, hscan⟩ := scan_of_accurate hd hd'
  obtain ⟨hplo, hphi⟩ := seed_product hj hlo hhi
  obtain ⟨-, hseed, hx, hovf⟩ := recip_of_scan hscan
  rw [scannedTo_k] at hseed hx hovf
  rw [← sint_seedOf hj] at hplo hphi
  have h0 : Estimate (sint d) (sint (seedOf j)) :=
    ⟨by rw [sint_seedOf hj]; positivity, by omega⟩
  have h1 := h0.next hd hd'
  have h2 := h1.next hd hd'
  have h3 := h2.next hd hd'
  obtain ⟨hrovf, hrval⟩ := refine_of_fits (h0.fits hd hd') rfl (h1.fits hd hd') rfl
    (h2.fits hd hd') (scannedTo j).ovf
  have herr := newton_three hd hd' h0 hplo hphi.le
  rw [← hrval, ← hx] at h3 herr
  refine ⟨(recip_ood_false_iff d).mpr ⟨by omega, hd'⟩, hovf.trans hrovf, ?half, ?one,
    truncated_error (by omega) h3.upper herr⟩
  case half =>
    rw [hseed, val_mul_val, div_le_div_iff₀ (by norm_num) (by norm_num)]
    exact_mod_cast (by omega : 1 * 4294967296 ≤ sint d * sint (seedOf j) * 2)
  case one =>
    rw [hseed, val_mul_val, div_lt_one (by norm_num)]
    exact_mod_cast hphi

/-! Outside the accurate range (R117) -/

/-- Below 1.0 the scan stops at once, with the seed 1.0. -/
theorem recip_of_lt_one {d : Word} (h : sint d < 0x10000) :
    (recip d).k = 0 ∧ (recip d).seed = one ∧ (recip d).x = (refine d 3 (one, false)).1 ∧
    (recip d).ovf = (refine d 3 (one, false)).2 := by
  have hscan : scan d = scannedTo 0 := scan_of_first_above (by omega) (by simp) h
  exact recip_of_scan hscan

/-- Each of the three steps at most doubles the seed 1.0. -/
theorem recip_of_small {d : Word} (hlo : 1 ≤ sint d) (hhi : sint d ≤ 0x7FFF) :
    (recip d).ovf = false ∧ sint (recip d).x ≤ 0x80000 := by
  obtain ⟨-, -, hx, hovf⟩ := recip_of_lt_one (d := d) (by omega)
  have hone : sint one = 65536 := by decide
  have fits (x : Int) (h0 : 0 ≤ x) (hle : x ≤ 262144) : StepFits (sint d) x :=
    ⟨by omega, h0, hle, lt_of_le_of_lt (mul_le_mul hhi hle h0 (by norm_num)) (by norm_num)⟩
  have h0 := fits (sint one) (by omega) (by omega)
  obtain ⟨hlo1, hhi1⟩ := h0.newton_range
  have h1 := fits _ hlo1 (by omega)
  obtain ⟨hlo2, hhi2⟩ := h1.newton_range
  have h2 := fits _ hlo2 (by omega)
  obtain ⟨hrovf, hrval⟩ := refine_of_fits h0 rfl h1 rfl h2 false
  obtain ⟨-, hhi3⟩ := h2.newton_range
  rw [hovf, hx, hrval]
  exact ⟨hrovf, by omega⟩

/-- From 16384.0 on one ulp is a fixed point of the refinement: its other factor lies between 1.0
and 2.0. -/
theorem newton_one_ulp {d : Int} (hlo : 0x40000000 ≤ d) (hhi : d ≤ 0x7FFFFFFF) :
    newton d 1 = 1 := by
  rw [newton]
  omega

theorem recip_of_ge_bound {d : Word} (h : 0x40000000 ≤ sint d) :
    recip d =
      { k := 16, seed := 0x00000001#32, x := 0x00000001#32, ood := true, ovf := true } := by
  obtain ⟨-, hmax⟩ := sint_range d
  obtain ⟨hk, hseed, hx, hovf⟩ := recip_of_scan (scan_of_ge_bound h)
  have hood : (recip d).ood = true := (recip_ood_iff d).mpr (.inr ((not_fxGt_scan_iff d).mpr h))
  have hulp : seedOf 16 = 0x00000001#32 := by decide
  have hone : sint 0x00000001#32 = 1 := by decide
  have hstep : newton (sint d) (sint 0x00000001#32) = sint 0x00000001#32 := by
    rw [hone]
    exact newton_one_ulp h hmax
  have hfits : StepFits (sint d) (sint 0x00000001#32) := by
    rw [hone]
    exact ⟨by omega, by omega, by omega, by omega⟩
  obtain ⟨hrovf, hrval⟩ := refine_of_fits hfits hstep hfits hstep hfits true
  rw [hstep, sint_inj] at hrval
  simp only [hulp, hrovf, hrval] at hseed hx hovf
  calc recip d
      = ⟨(recip d).k, (recip d).seed, (recip d).x, (recip d).ood, (recip d).ovf⟩ := rfl
    _ = ⟨16, 0x00000001#32, 0x00000001#32, true, true⟩ := by rw [hk, hseed, hx, hood, hovf]

/-- Settles O24: small estimates double at most three times; zero and everything negative are out
of the domain; from 16384.0 on one ulp is a fixed point. -/
theorem reciprocalOutsideTheAccurateRange : Obligations.ReciprocalOutsideTheAccurateRange := by
  refine ⟨fun d hlo hhi => ?small, recip_zero, fun d hneg => ?negative,
    fun d => recip_of_ge_bound⟩
  case small =>
    obtain ⟨hk, hseed, -, -⟩ := recip_of_lt_one (d := d) (by omega)
    obtain ⟨hovf, hle⟩ := recip_of_small hlo hhi
    exact ⟨(recip_ood_false_iff d).mpr ⟨hlo, by omega⟩, hovf, hk, hseed, hle⟩
  case negative =>
    obtain ⟨hk, hseed, -, -⟩ := recip_of_lt_one (d := d) (by omega)
    exact ⟨(recip_ood_iff d).mpr (.inl hneg.le), hk, hseed⟩

end Sys2Proof.Machine
end
